-- ==== Sys2Proof/Word.lean ====
section
/-! DEFINITION. The plainest data of the EGC: a byte of the bit buffer's packed form, and a bit sequence (00_scope.md R13). -/

namespace Sys2Proof

/-- Eight stream positions, packed as in 20_memory.md R42. -/
abbrev Byte := BitVec 8

/-- A bit sequence, position 0 first (00_scope.md R13). -/
abbrev Bits := List Bool

end Sys2Proof
end

