-- ==== Sys2Proof/Machine/Registers.lean ====
section
/-! DEFINITION. The records the State is made of: status codes (30_encoding.md R68), responses (R66), the
Decoder's working registers (42_decoder.md R121), the ports' state (10_state.md R29) and the input pins (R60). -/

namespace Sys2Proof.Machine

/-- The status codes 0 to 9 (R68). Codes 10 to 15 are never produced (R210), so they have no constructor
(93_implementation_defined.md U19). -/
inductive Status where
  | ok
  | domainError
  | truncatedStream
  | endOfStream
  /-- Elaboration only: no response carries it (60_exceptions.md R203). -/
  | invalidTableRange
  | capacityError
  | decodeOverflow
  | tableMiss
  | positionRange
  | illegalCommand
  deriving DecidableEq, Repr

/-- The number of a status code (R68). -/
def Status.code : Status → Nat
  | .ok => 0
  | .domainError => 1
  | .truncatedStream => 2
  | .endOfStream => 3
  | .invalidTableRange => 4
  | .capacityError => 5
  | .decodeOverflow => 6
  | .tableMiss => 7
  | .positionRange => 8
  | .illegalCommand => 9

/-- A response, the quadruple (STATUS, VALUE, LEN, AUX) of R66. -/
structure Response where
  status : Status
  value : Nat
  len : Nat
  aux : Nat
  deriving DecidableEq, Repr

/-- The states of the R121 machine. -/
inductive Phase where
  | unary
  | binary
  | done
  deriving DecidableEq, Repr, Inhabited

/-- The phase as the AUX field of TRUNCATED_STREAM reports it: 0 = UNARY, 1 = BINARY (R124, R202).
DONE is never reported. -/
def Phase.code : Phase → Nat
  | .unary => 0
  | .binary => 1
  | .done => 2

/-- The Decoder's working registers (10_state.md R28, 42_decoder.md R121). -/
structure Decoder where
  phase : Phase
  /-- the scan position, CW bits -/
  p : Nat
  /-- the zero count, CW bits -/
  e : Nat
  /-- the remainder accumulator, NW bits -/
  r : Nat
  /-- the remainder bits read so far, CW bits -/
  k : Nat
  deriving DecidableEq, Repr, Inhabited

/-- The command and response ports' state (10_state.md R29). -/
inductive Port where
  /-- From power-on to the first reset edge (70_reset_and_hazards.md R223). -/
  | unreset
  /-- No command in progress and no response pending (R231). -/
  | ready
  /-- A command is in progress and its response is `rsp` (R233); `elapsed` edges have passed since the
  one that accepted it (entry 13). -/
  | busy (rsp : Response) (elapsed : Nat)
  /-- rsp_valid = 1 and rsp_word holds `rsp` (R232). -/
  | pending (rsp : Response)
  deriving DecidableEq, Repr

/-- What the host drives on the input ports at one rising edge of clk (R60). -/
structure Pins where
  rst : Bool
  cmdValid : Bool
  cmdWord : Nat
  rspReady : Bool
  deriving DecidableEq, Repr

end Sys2Proof.Machine
end

