-- ==== Sys2Proof/Syntax.lean ====
section
/-! DEFINITION. The commands: one constructor per row of spec/opcode_table.json (30_encoding.md R65, R69). -/

namespace Sys2Proof

/-- A command, the triple (OP, ARG, CNT) of R62: OP is the constructor, and both operand fields are kept
by every command, also where the command ignores them (R64; 93_implementation_defined.md U7). The fields are
naturals, because their widths NW and CW are parameters; `WellFormed` bounds them (entry 2). -/
inductive Instr where
  /-- OP 0x0: the stream's state (R154). -/
  | query (arg cnt : Nat)
  /-- OP 0x1: the codeword of ARG (R101). -/
  | encode (arg cnt : Nat)
  /-- OP 0x2: the codeword of ARG, appended (R102). -/
  | encodeAppend (arg cnt : Nat)
  /-- OP 0x3: read one codeword (R122). -/
  | decode (arg cnt : Nat)
  /-- OP 0x4: append ARG[0] (R145). -/
  | appendBit (arg cnt : Nat)
  /-- OP 0x5: append CNT bits of ARG (R148). -/
  | appendBits (arg cnt : Nat)
  /-- OP 0x6: read one bit (R151). -/
  | readBit (arg cnt : Nat)
  /-- OP 0x7: the ROM row of ARG (R173). -/
  | tableLookup (arg cnt : Nat)
  /-- OP 0x8: the ROM row of ARG, appended (R174). -/
  | tableAppend (arg cnt : Nat)
  /-- OP 0x9: empty the stream (R155). -/
  | streamClear (arg cnt : Nat)
  /-- OP 0xA: set the read cursor to CNT (R157). -/
  | streamSeek (arg cnt : Nat)
  /-- OP 0xB: byte CNT of the packed view (R160). -/
  | readByte (arg cnt : Nat)
  /-- OP 0xC, reserved (R69). -/
  | reservedC (arg cnt : Nat)
  /-- OP 0xD, reserved (R69). -/
  | reservedD (arg cnt : Nat)
  /-- OP 0xE, reserved (R69). -/
  | reservedE (arg cnt : Nat)
  /-- OP 0xF, reserved (R69). -/
  | reservedF (arg cnt : Nat)
  deriving DecidableEq, Repr

/-- The field ARG of a command (R62). -/
def Instr.arg : Instr → Nat
  | .query a _ => a
  | .encode a _ => a
  | .encodeAppend a _ => a
  | .decode a _ => a
  | .appendBit a _ => a
  | .appendBits a _ => a
  | .readBit a _ => a
  | .tableLookup a _ => a
  | .tableAppend a _ => a
  | .streamClear a _ => a
  | .streamSeek a _ => a
  | .readByte a _ => a
  | .reservedC a _ => a
  | .reservedD a _ => a
  | .reservedE a _ => a
  | .reservedF a _ => a

/-- The field CNT of a command (R62). -/
def Instr.cnt : Instr → Nat
  | .query _ c => c
  | .encode _ c => c
  | .encodeAppend _ c => c
  | .decode _ c => c
  | .appendBit _ c => c
  | .appendBits _ c => c
  | .readBit _ c => c
  | .tableLookup _ c => c
  | .tableAppend _ c => c
  | .streamClear _ c => c
  | .streamSeek _ c => c
  | .readByte _ c => c
  | .reservedC _ c => c
  | .reservedD _ c => c
  | .reservedE _ c => c
  | .reservedF _ c => c

end Sys2Proof
end

