-- ==== Sys2Proof/Config.lean ====
section
/-! DEFINITION. What an implementation fixes: the elaboration parameters (00_scope.md R6 to R9) and the free
values the spec leaves open. A free value has no body, so nothing can be proved about which value it is. -/

namespace Sys2Proof

/-- The parameters NW, CAP, CW, NMAX (R6 to R9), as `Config` of R16. LAT (R10) is `Config.freeLatency`. -/
structure Config where
  /-- NW, the width of n, ARG and VALUE (R7) -/
  nw : Nat
  /-- CAP, the capacity of the bit buffer in bits (R8) -/
  cap : Nat
  /-- CW, the width of CNT, LEN, AUX, WLEN and RPOS (R9) -/
  cw : Nat
  /-- NMAX, the number of ROM rows (R6) -/
  nmax : Nat
  deriving DecidableEq, Repr

/-- The defaults of R6 to R9. -/
def Config.default : Config := { nw := 32, cap := 32768, cw := 16, nmax := 256 }

/-- The constraints of R6 to R9. A configuration that breaks one produces no hardware (60_exceptions.md R203). -/
abbrev Config.Legal (c : Config) : Prop :=
  1 ≤ c.nw ∧ 1 ≤ c.cap ∧ c.cap ≤ 2 ^ c.cw - 1 ∧ 2 * c.nw - 1 ≤ 2 ^ c.cw - 1 ∧
    1 ≤ c.nmax ∧ c.nmax ≤ 2 ^ c.nw - 1

/-- FREE VALUE (entry 6): LAT - 1 of a command (R10), a function of the command and of the state that accepts it
(93_implementation_defined.md U12): its parameters, BUF, WLEN, RPOS and the draw. Two commands accepted from one
state can differ in LAT. DESIGN CHOICE: it depends on nothing else. -/
opaque Config.freeLatency (cfg : Config) (i : Instr) (buf : List Host.Cell) (wlen rpos draw : Nat) : Nat

/-- FREE VALUE (entry 5): what the Decoder's working registers hold after a DECODE (R28; U5), a function of the
state the DECODE finds and of no field of the command, since DECODE ignores both (R64). -/
opaque Config.freeDecoder (cfg : Config) (buf : List Host.Cell) (wlen rpos draw : Nat) : Machine.Decoder

/-- FREE VALUE (entry 12): zext_NW of a value that NW bits cannot hold, a case no rule states (R12, R160). -/
opaque Config.freeNarrow (nw value : Nat) : Nat

end Sys2Proof
end

