-- ==== Sys2Proof/WellFormed.lean ====
section
/-! DEFINITION. When a command's operands fit their fields (30_encoding.md R62, R63). -/

namespace Sys2Proof

/-- ARG fits NW bits and CNT fits CW bits. No other check exists: ignored fields may hold any value (R64)
and every OP value is a command (R70). -/
abbrev WellFormed (cfg : Config) (i : Instr) : Prop :=
  i.arg < 2 ^ cfg.nw ∧ i.cnt < 2 ^ cfg.cw

end Sys2Proof
end

