-- ==== Sys2Proof/Decode.lean ====
section
/-! DEFINITION. The command word's layout (30_encoding.md R62) and opcode map (R65), read and written. -/

namespace Sys2Proof

/-- The field of `width` bits of v whose lowest bit is bit `lo` (00_scope.md R12). -/
def bitField (v lo width : Nat) : Nat := (v >>> lo) % 2 ^ width

/-- CMDW, the width of a command word (R11). -/
def Config.cmdw (cfg : Config) : Nat := 4 + cfg.nw + cfg.cw

/-- The opcode map (R65): all sixteen values of OP. -/
def fromOpcode (op : Fin 16) (arg cnt : Nat) : Instr :=
  match op with
  | 0x0 => .query arg cnt
  | 0x1 => .encode arg cnt
  | 0x2 => .encodeAppend arg cnt
  | 0x3 => .decode arg cnt
  | 0x4 => .appendBit arg cnt
  | 0x5 => .appendBits arg cnt
  | 0x6 => .readBit arg cnt
  | 0x7 => .tableLookup arg cnt
  | 0x8 => .tableAppend arg cnt
  | 0x9 => .streamClear arg cnt
  | 0xA => .streamSeek arg cnt
  | 0xB => .readByte arg cnt
  | 0xC => .reservedC arg cnt
  | 0xD => .reservedD arg cnt
  | 0xE => .reservedE arg cnt
  | 0xF => .reservedF arg cnt
  | ⟨_ + 16, h⟩ => absurd h (by omega)

/-- The command a word is: (cmd_word[3:0], cmd_word[NW+3:4], cmd_word[NW+CW+3:NW+4]) (R62). Total, with no
refusal (R70); bits at or above CMDW are no bits of the port and are not read (entry 15). -/
def decode (cfg : Config) (word : Nat) : Instr :=
  fromOpcode (Fin.ofNat 16 (bitField word 0 4)) (bitField word 4 cfg.nw) (bitField word (cfg.nw + 4) cfg.cw)

/-- A command's OP value (R65). -/
def opcode : Instr → Nat
  | .query _ _ => 0x0
  | .encode _ _ => 0x1
  | .encodeAppend _ _ => 0x2
  | .decode _ _ => 0x3
  | .appendBit _ _ => 0x4
  | .appendBits _ _ => 0x5
  | .readBit _ _ => 0x6
  | .tableLookup _ _ => 0x7
  | .tableAppend _ _ => 0x8
  | .streamClear _ _ => 0x9
  | .streamSeek _ _ => 0xA
  | .readByte _ _ => 0xB
  | .reservedC _ _ => 0xC
  | .reservedD _ _ => 0xD
  | .reservedE _ _ => 0xE
  | .reservedF _ _ => 0xF

/-- The word of a command: cmd_word = (CNT << (NW + 4)) | (ARG << 4) | OP (R62). -/
def encode (cfg : Config) (i : Instr) : Nat :=
  (i.cnt <<< (cfg.nw + 4)) ||| (i.arg <<< 4) ||| opcode i

/-- What the decoder reads from a command word given by its low `nbits` bits, the bits above them 0, at the
default configuration whose field positions opcode_table.json has (R65; entry 15). -/
def decodeTableWord (nbits w : Nat) : Option Instr :=
  some (decode Config.default (w % 2 ^ nbits))

end Sys2Proof
end

