-- ==== Sys2Proof/Machine/Operands.lean ====
section
/-! DEFINITION. The arithmetic every rule uses (00_scope.md R17), integers as bit sequences (R13), zero extension
(R12), and the constants the parameters fix (R11, 20_memory.md R40). -/

namespace Sys2Proof.Machine

/-- bitlen(n), the number of binary digits of n, for n ≥ 1 (R17). -/
def bitlen (n : Nat) : Nat := Nat.log2 n + 1

/-- clog2(x), the least k with 2^k ≥ x (R17). -/
def clog2 (x : Nat) : Nat := if x ≤ 1 then 0 else Nat.log2 (x - 1) + 1

/-- ceil8(w), the bytes needed for w bits (R17). -/
def ceil8 (w : Nat) : Nat := (w + 7) >>> 3

/-- bits_k(v): position i holds v[k-1-i] (R13). -/
def bitsOf : (k v : Nat) → Bits
  | 0, _ => []
  | k + 1, v => v.testBit k :: bitsOf k v

/-- One more digit: `(r << 1) | b` (R12). -/
def shiftIn (r : Nat) (b : Bool) : Nat := (r <<< 1) ||| b.toNat

/-- val(s), the integer whose binary digits are s, most significant first (R13). -/
def valOf (s : Bits) : Nat := s.foldl shiftIn 0

/-- zext_NW(v) (R12). Where v does not fit NW bits (only READ_BYTE with NW < 8) no rule states the result: an
NW-bit free value (entry 12). -/
def zext (cfg : Config) (v : Nat) : Nat :=
  if v < 2 ^ cfg.nw then v else Config.freeNarrow cfg.nw v % 2 ^ cfg.nw

/-- LMAX, the longest codeword of an NW-bit integer (R11). -/
def lmax (cfg : Config) : Nat := 2 * cfg.nw - 1

/-- PW, the width of the ROM's packed-value field (R11). -/
def pw (cfg : Config) : Nat := bitlen cfg.nmax

/-- LWR, the width of the ROM's bit-length field (R11). -/
def lwr (cfg : Config) : Nat := bitlen (2 * (pw cfg - 1) + 1)

/-- RSPW, the width of a response word (R11). -/
def rspw (cfg : Config) : Nat := 4 + cfg.nw + 2 * cfg.cw

/-- The width of a ROM row's address (R40). -/
def romAddressWidth (cfg : Config) : Nat := max 1 (clog2 cfg.nmax)

/-- rsp_word = (AUX << (NW + CW + 4)) | (LEN << (NW + 4)) | (VALUE << 4) | STATUS (R66). -/
def responseWord (cfg : Config) (r : Response) : Nat :=
  (r.aux <<< (cfg.nw + cfg.cw + 4)) ||| (r.len <<< (cfg.nw + 4)) ||| (r.value <<< 4) ||| r.status.code

end Sys2Proof.Machine
end

