-- ==== Sys2Proof/Machine/Codeword.lean ====
section
/-! DEFINITION. The Elias Gamma codeword as pure functions (40_codeword.md), the Encoder's function (41_encoder.md
R100), the code-table ROM generated from it (44_lookup_table.md R170, R171) and the pure decoding function (R98). -/

namespace Sys2Proof.Machine

/-- e(n) = bitlen(n) - 1 (R90). -/
def exponent (n : Nat) : Nat := bitlen n - 1

/-- r(n) = n - 2^e(n) (R91). -/
def remainder (n : Nat) : Nat := n - 2 ^ exponent n

/-- L(n) = 2*e(n) + 1 (R92). -/
def codeLength (n : Nat) : Nat := 2 * exponent n + 1

/-- cw(n) = 0^e ++ [1] ++ bits_e(r) (R93). -/
def codeword (n : Nat) : Bits :=
  List.replicate (exponent n) false ++ [true] ++ bitsOf (exponent n) (remainder n)

/-- What the Encoder computes: the packed codeword, its length and its exponent (R100). -/
structure Code where
  value : Nat
  length : Nat
  exponent : Nat
  deriving DecidableEq, Repr

/-- The Encoder's function, for n ≥ 1 (R100, R101). -/
def encoder (n : Nat) : Code :=
  { value := n, length := codeLength n, exponent := exponent n }

/-- ROM word i, (len << PW) | packed (R171), of the pair the Encoder gives for n = i + 1 (R170). -/
def romWord (cfg : Config) (i : Nat) : Nat :=
  ((encoder (i + 1)).length <<< pw cfg) ||| (encoder (i + 1)).value

/-- ROM[i], the pair (packed, len) in row i (R14, R171). -/
def romRow (cfg : Config) (i : Nat) : Nat × Nat :=
  (bitField (romWord cfg i) 0 (pw cfg), bitField (romWord cfg i) (pw cfg) (lwr cfg))

/-- The whole ROM, rows 0 to NMAX - 1, as elaboration fills it (R172, R176). -/
def romImage (cfg : Config) : List Nat := (List.range cfg.nmax).map (romWord cfg)

/-- The results of the pure decoding function (R98). -/
inductive Decoded where
  | overflow
  | truncated (phase : Phase) (consumed : Nat)
  | ok (n bitsConsumed : Nat)
  deriving DecidableEq, Repr

/-- The number of leading zero bits of s, up to the first 1 or the end (R98). -/
def leadingZeros : Bits → Nat
  | [] => 0
  | b :: s => if b then 0 else leadingZeros s + 1

/-- gdec(s) (R98). The Decoder itself is the R121 machine (`runDecoder`); this function states its results. -/
def gdec (nw : Nat) (s : Bits) : Decoded :=
  let z := leadingZeros s
  if nw ≤ z then .overflow
  else if z = s.length then .truncated .unary s.length
  else if s.length < 2 * z + 1 then .truncated .binary s.length
  else .ok (2 ^ z + valOf ((s.drop (z + 1)).take z)) (2 * z + 1)

end Sys2Proof.Machine
end

