-- ==== Sys2Proof/Machine/State.lean ====
section
/-! DEFINITION. The machine's state (10_state.md R20, R28, R29), its reset value (R30) and the two ways a step
can stop. -/

namespace Sys2Proof.Machine

/-- Why a step stops with a fault. -/
inductive Fault where
  /-- A command would read a bit-buffer position at or past CAP, which does not exist (20_memory.md R49).
  Raised by READ_BIT where RPOS differs from WLEN and RPOS >= CAP, by DECODE where RPOS < WLEN and WLEN > CAP, and by
  READ_BYTE where one of its positions below WLEN is at or past CAP. R25 rules all of them out (entry 11). SAFE. -/
  | positionOutsideBuffer
  deriving DecidableEq, Repr

/-- Why a step is refused. -/
inductive Refusal where
  /-- Raised by an arm of `exec` whose instruction has no meaning yet. SAFE. No arm raises it. -/
  | notModelled (mnemonic : String)
  /-- Raised by `step` at an edge with rst = 0 before the first reset edge: no rule describes the EGC there
  (70_reset_and_hazards.md R223; 93_implementation_defined.md U3). SAFE. -/
  | beforeFirstReset
  deriving DecidableEq, Repr

/-- The bit buffer as (byte index, byte) cells, in the byte view of 20_memory.md R42: byte k holds positions
8k .. 8k+7, position 8k in bit 7 (entry 3). -/
abbrev Memory := List Host.Cell

/-- What a byte of the bit buffer that nothing has written reads as. DESIGN CHOICE, unsafe (entry 3): the
spec leaves it open and says that no command shows it (10_state.md R21; U2). -/
def Memory.unlisted : Byte := 0

/-- Indexes rise strictly from `lo` on, and no cell equals what an unlisted byte reads as. -/
def Memory.wfFrom (lo : Nat) : Memory → Bool
  | [] => true
  | (a, b) :: m => decide (lo ≤ a) && b != Memory.unlisted && Memory.wfFrom (a + 1) m

/-- The canonical form of the bit buffer's cells. -/
def Memory.wf (m : Memory) : Bool := Memory.wfFrom 0 m

structure State where
  /-- The elaboration parameters; nothing changes them. The MODEL's own field (entry 1). -/
  cfg : Config
  /-- BUF (R21). -/
  buf : Memory
  /-- WLEN, the number of bits appended and not cleared (R22). -/
  wlen : Nat
  /-- RPOS, the read cursor (R23). -/
  rpos : Nat
  /-- The Decoder's working registers (R28). -/
  decoder : Decoder
  /-- The ports' state (R29). -/
  port : Port
  /-- What the host drives at the coming rising edges, the next edge first. The MODEL's own field (entry 8). -/
  pins : List Pins
  /-- LAT - 1 of the command accepted last (R10), set when it is accepted and read while it is in progress. The
  MODEL's own field (entry 6). -/
  wait : Nat
  /-- How many free values have been drawn. The MODEL's own field, no counter of the hardware (entry 19). -/
  draws : Nat
  deriving DecidableEq, Repr

/-- The machine with parameters `cfg` right after reset (R30): WLEN = RPOS = 0, phase UNARY, no command in
progress, no response pending. The other values are the model's (entries 4, 6, 8, 19). -/
def State.resetFor (cfg : Config) : State where
  cfg := cfg
  buf := []
  wlen := 0
  rpos := 0
  decoder := { phase := .unary, p := 0, e := 0, r := 0, k := 0 }
  port := .ready
  pins := []
  wait := 0
  draws := 0

/-- The machine right after reset, with the default parameters of R6 to R9. -/
def State.reset : State := State.resetFor Config.default

end Sys2Proof.Machine
end

