-- ==== Sys2Proof/Machine/Ops.lean ====
section
/-! DEFINITION. The named operations over the bit buffer, the cursor and the response (00_scope.md R14, R15,
43_bitstream.md R140), error reporting (60_exceptions.md R200), reset (R220) and elaboration (R203). -/

namespace Sys2Proof.Machine

/-! ## The bit buffer -/

/-- Byte k of the buffer. -/
def Memory.cell : Memory → Nat → Byte
  | [], _ => Memory.unlisted
  | (a, b) :: m, k => if k = a then b else Memory.cell m k

/-- Byte k set to b, in the canonical form. -/
def Memory.setCell : Memory → Nat → Byte → Memory
  | [], k, b => if b = Memory.unlisted then [] else [(k, b)]
  | (a, c) :: m, k, b =>
    if k < a then (if b = Memory.unlisted then (a, c) :: m else (k, b) :: (a, c) :: m)
    else if k = a then (if b = Memory.unlisted then m else (k, b) :: m)
    else (a, c) :: Memory.setCell m k b

/-- Bit i of a byte set to v. -/
def setByteBit (b : Byte) (i : Nat) (v : Bool) : Byte :=
  if v then b ||| (1#8 <<< i) else b &&& ~~~(1#8 <<< i)

/-- BUF[p]: position 8k + j is bit 7 - j of byte k (20_memory.md R42). -/
def Memory.bit (m : Memory) (p : Nat) : Bool := (m.cell (p / 8)).getLsbD (7 - p % 8)

/-- BUF[p] <- v. -/
def Memory.setBit (m : Memory) (p : Nat) (v : Bool) : Memory :=
  m.setCell (p / 8) (setByteBit (m.cell (p / 8)) (7 - p % 8) v)

/-- BUF[p], BUF[p+1], .., BUF[p+k-1]. -/
def Memory.bits (m : Memory) : (p k : Nat) → Bits
  | _, 0 => []
  | p, k + 1 => m.bit p :: Memory.bits m (p + 1) k

/-- BUF[p + i] <- s[i] for every i < len(s). -/
def Memory.setBits : Memory → Nat → Bits → Memory
  | m, _, [] => m
  | m, p, b :: s => Memory.setBits (m.setBit p b) (p + 1) s

/-- STREAM = BUF[0], .., BUF[WLEN-1] (10_state.md R21). -/
def State.stream (s : State) : Bits := s.buf.bits 0 s.wlen

/-- The unread stream BUF[RPOS], .., BUF[WLEN-1] (42_decoder.md R122). -/
def State.unread (s : State) : Bits := s.buf.bits s.rpos (s.wlen - s.rpos)

/-- A command's read of k positions from p on. Positions at or past CAP do not exist (20_memory.md R49), and reading one
faults: DESIGN CHOICE (entry 11). A read of no positions gives the empty sequence wherever p is (entry 21). -/
def State.readBits (s : State) (p k : Nat) : Except Fault Bits :=
  if k = 0 ∨ p + k ≤ s.cfg.cap then .ok (s.buf.bits p k) else .error .positionOutsideBuffer

/-! ## Responses and errors -/

/-- The response a command in progress will give, or that is pending. -/
def State.response (s : State) : Option Response :=
  match s.port with
  | .busy r _ => some r
  | .pending r => some r
  | .ready => none
  | .unreset => none

/-- The state in which the command in progress answers r (R15, R233). -/
def State.answered (s : State) (r : Response) : State :=
  { s with port := .busy r 0, draws := s.draws + 1 }

/-- respond(STATUS, value, len, aux) (R15). -/
def State.respond (s : State) (status : Status) (value len aux : Nat) : Host.Outcome State Fault Refusal :=
  .next (s.answered { status := status, value := value, len := len, aux := aux })

/-- raise <Error>(len, aux): respond(<Error>, 0, len, aux) on the state the command found (R15, R200). It saves
nothing, changes no mode and goes nowhere (60_exceptions.md R213). -/
def State.raise (s : State) (error : Status) (len aux : Nat) : Host.Outcome State Fault Refusal :=
  s.respond error 0 len aux

/-! ## The stream's writers -/

/-- The state after the bits s are written at WLEN and WLEN has grown past them (R140). -/
def State.extended (s : State) (bits : Bits) : State :=
  { s with buf := s.buf.setBits s.wlen bits, wlen := s.wlen + bits.length }

/-- Append(s): the capacity check and the writes (R140). The error is the response CAPACITY_ERROR (R205). -/
def State.append (s : State) (bits : Bits) : Except Response State :=
  if s.cfg.cap < s.wlen + bits.length then
    .error { status := .capacityError, value := 0, len := bits.length, aux := s.cfg.cap - s.wlen }
  else .ok (s.extended bits)

/-- RPOS <- p (R23). -/
def State.movedTo (s : State) (p : Nat) : State := { s with rpos := p }

/-- WLEN <- 0, RPOS <- 0; BUF keeps its bits (R155). -/
def State.cleared (s : State) : State := { s with wlen := 0, rpos := 0 }

/-- The Decoder's working registers after a DECODE: free values of their widths (R28; U5; entry 5). -/
def State.decoderReleased (s : State) : State :=
  let d := Config.freeDecoder s.cfg s.buf s.wlen s.rpos s.draws
  { s with decoder :=
      { phase := d.phase, p := d.p % 2 ^ s.cfg.cw, e := d.e % 2 ^ s.cfg.cw, r := d.r % 2 ^ s.cfg.nw,
        k := d.k % 2 ^ s.cfg.cw } }

/-! ## Reset and elaboration -/

/-- A rising edge with rst = 1: the reset state, whatever the state before (R220, R222). The host's schedule and
the free-value counter are no part of the machine and stay (entries 8 and 19). -/
def State.resetEdge (s : State) : State :=
  { State.resetFor s.cfg with pins := s.pins, draws := s.draws }

/-- The hardware as it stands from power-on to its first reset edge. Its state is unspecified (R223); no step
but a reset edge leaves it (entry 10). -/
def State.powerOn (cfg : Config) : State := { State.resetFor cfg with port := .unreset }

/-- Elaboration: the hardware, or InvalidTableRangeError and no hardware (R6, R203; entry 18). -/
def elaborate (cfg : Config) : Except Status State :=
  if cfg.Legal then .ok (State.powerOn cfg) else .error .invalidTableRange

end Sys2Proof.Machine
end

