-- ==== Sys2Proof/Machine/Flags.lean ====
section
/-! DEFINITION. The EGC's one flag, ATEND, which is derived and never stored (10_state.md R24). -/

namespace Sys2Proof.Machine

/-- ATEND = (RPOS == WLEN) at every instant (R24). -/
def State.atEnd (s : State) : Bool := s.rpos == s.wlen

/-- ATEND as a number, for the fields that return it (30_encoding.md R67). -/
def State.atEndBit (s : State) : Nat := s.atEnd.toNat

end Sys2Proof.Machine
end

