-- ==== Sys2Proof/Machine/Bitstream.lean ====
section
/-! DEFINITION. The Bitstream commands (43_bitstream.md). -/

namespace Sys2Proof.Machine

/-- APPEND_BIT (R145): ARG[0] alone is appended. CNT is ignored. -/
def execAppendBit (arg _cnt : Nat) (s : State) : Host.Outcome State Fault Refusal :=
  match s.append [arg.testBit 0] with
  | .error r => s.raise r.status r.len r.aux
  | .ok t => t.respond .ok 0 t.wlen 0

/-- APPEND_BITS (R148): bits_k(v) with v = ARG and k = CNT. -/
def execAppendBits (arg cnt : Nat) (s : State) : Host.Outcome State Fault Refusal :=
  match s.append (bitsOf cnt arg) with
  | .error r => s.raise r.status r.len r.aux
  | .ok t => t.respond .ok 0 t.wlen 0

/-- READ_BIT (R151): LEN and AUX are RPOS and ATEND after the read. ARG and CNT are ignored. -/
def execReadBit (_arg _cnt : Nat) (s : State) : Host.Outcome State Fault Refusal :=
  if s.rpos = s.wlen then s.raise .endOfStream 0 0
  else
    match s.readBits s.rpos 1 with
    | .error f => .fault f
    | .ok read =>
      let t := s.movedTo (s.rpos + 1)
      t.respond .ok (zext s.cfg (valOf read)) t.rpos t.atEndBit

/-- QUERY (R154). ARG and CNT are ignored. -/
def execQuery (_arg _cnt : Nat) (s : State) : Host.Outcome State Fault Refusal :=
  s.respond .ok (zext s.cfg s.atEndBit) s.wlen s.rpos

/-- STREAM_CLEAR (R155). ARG and CNT are ignored. -/
def execStreamClear (_arg _cnt : Nat) (s : State) : Host.Outcome State Fault Refusal :=
  s.cleared.respond .ok 0 0 0

/-- STREAM_SEEK (R157) to p = CNT. ARG is ignored. -/
def execStreamSeek (_arg cnt : Nat) (s : State) : Host.Outcome State Fault Refusal :=
  if s.wlen < cnt then s.raise .positionRange s.wlen 0
  else
    let t := s.movedTo cnt
    t.respond .ok 0 t.wlen t.rpos

/-- The byte of at most eight bits, the first one its bit 7, the missing ones 0 (20_memory.md R42). -/
def paddedByte (bits : Bits) : Nat := valOf (bits ++ List.replicate (8 - bits.length) false)

/-- READ_BYTE (R160) of byte k = CNT: positions 8k .. min(8k+7, WLEN-1) are read (R45). ARG is ignored. -/
def execReadByte (_arg cnt : Nat) (s : State) : Host.Outcome State Fault Refusal :=
  if s.wlen ≤ 8 * cnt then s.raise .positionRange (ceil8 s.wlen) 0
  else
    match s.readBits (8 * cnt) (min 8 (s.wlen - 8 * cnt)) with
    | .error f => .fault f
    | .ok read => s.respond .ok (zext s.cfg (paddedByte read)) (ceil8 s.wlen) 0

end Sys2Proof.Machine
end

