-- ==== Sys2Proof/Machine/DecoderUnit.lean ====
section
/-! DEFINITION. The Decoder's reference state machine (42_decoder.md R121) and DECODE (R122). -/

namespace Sys2Proof.Machine

/-- How a run of the machine ends. The consumed bits of a failure are p - RPOS (R124). -/
inductive DecoderEnd where
  | done (n bitsConsumed : Nat)
  | truncated (phase : Phase) (consumed : Nat)
  | overflow
  deriving DecidableEq, Repr

/-- start: p <- RPOS; e <- 0; r <- 0; state <- UNARY (R121). k is set when UNARY ends. -/
def decoderStart (rpos : Nat) : Decoder := { phase := .unary, p := rpos, e := 0, r := 0, k := 0 }

/-- DONE: n <- 2^e + r; bitsConsumed <- 2*e + 1 (R121). -/
def decoderDone (d : Decoder) : DecoderEnd := .done (2 ^ d.e + d.r) (2 * d.e + 1)

/-- The state BINARY (R121), with the unread bits from p on: `[]` is p == WLEN. -/
def runBinary (rpos : Nat) : Decoder → Bits → DecoderEnd
  | d, [] => if d.k = d.e then decoderDone { d with phase := .done } else .truncated d.phase (d.p - rpos)
  | d, b :: rest =>
    if d.k = d.e then decoderDone { d with phase := .done }
    else runBinary rpos { d with r := shiftIn d.r b, p := d.p + 1, k := d.k + 1 } rest

/-- The state UNARY (R121), with the unread bits from p on. The NW-th zero is found before the end of the
stream (R125). -/
def runUnary (nw rpos : Nat) : Decoder → Bits → DecoderEnd
  | d, [] => .truncated d.phase (d.p - rpos)
  | d, b :: rest =>
    if b then runBinary rpos { d with p := d.p + 1, k := 0, phase := .binary } rest
    else if d.e + 1 = nw then .overflow
    else runUnary nw rpos { d with p := d.p + 1, e := d.e + 1 } rest

/-- The whole machine, from position RPOS of the unread stream (R121). -/
def runDecoder (nw rpos : Nat) (unread : Bits) : DecoderEnd :=
  runUnary nw rpos (decoderStart rpos) unread

/-- DECODE (R122): on success RPOS advances, on every error it stays (R124, R125). ARG and CNT are ignored. -/
def execDecode (_arg _cnt : Nat) (s : State) : Host.Outcome State Fault Refusal :=
  match s.readBits s.rpos (s.wlen - s.rpos) with
  | .error f => .fault f
  | .ok unread =>
    match runDecoder s.cfg.nw s.rpos unread with
    | .overflow => s.decoderReleased.raise .decodeOverflow s.cfg.nw 0
    | .truncated phase consumed => s.decoderReleased.raise .truncatedStream consumed phase.code
    | .done n m => (s.decoderReleased.movedTo (s.rpos + m)).respond .ok n m ((m - 1) / 2)

end Sys2Proof.Machine
end

