-- ==== Sys2Proof/Machine/Encoder.lean ====
section
/-! DEFINITION. The Encoder commands (41_encoder.md). -/

namespace Sys2Proof.Machine

/-- ENCODE (R101). CNT is ignored. -/
def execEncode (arg _cnt : Nat) (s : State) : Host.Outcome State Fault Refusal :=
  if arg = 0 then s.raise .domainError 0 0
  else s.respond .ok (encoder arg).value (encoder arg).length (encoder arg).exponent

/-- ENCODE_APPEND (R102): the appended bits are bits_L(n), which is cw(n) (R94). CNT is ignored. -/
def execEncodeAppend (arg _cnt : Nat) (s : State) : Host.Outcome State Fault Refusal :=
  if arg = 0 then s.raise .domainError 0 0
  else
    match s.append (bitsOf (encoder arg).length (encoder arg).value) with
    | .error r => s.raise r.status r.len r.aux
    | .ok t => t.respond .ok (encoder arg).value (encoder arg).length (encoder arg).exponent

end Sys2Proof.Machine
end

