-- ==== Sys2Proof/Machine/Reserved.lean ====
section
/-! DEFINITION. The reserved opcodes (30_encoding.md R69): ILLEGAL_COMMAND and no change of state (R209). -/

namespace Sys2Proof.Machine

/-- What a command with a reserved OP does (R209). -/
def State.illegal (s : State) : Host.Outcome State Fault Refusal := s.raise .illegalCommand 0 0

/-- OP = 0xC (R69). -/
def execReservedC (_arg _cnt : Nat) (s : State) : Host.Outcome State Fault Refusal := s.illegal

/-- OP = 0xD (R69). -/
def execReservedD (_arg _cnt : Nat) (s : State) : Host.Outcome State Fault Refusal := s.illegal

/-- OP = 0xE (R69). -/
def execReservedE (_arg _cnt : Nat) (s : State) : Host.Outcome State Fault Refusal := s.illegal

/-- OP = 0xF (R69). -/
def execReservedF (_arg _cnt : Nat) (s : State) : Host.Outcome State Fault Refusal := s.illegal

end Sys2Proof.Machine
end

