-- ==== Sys2Proof/Machine/Table.lean ====
section
/-! DEFINITION. The table commands (44_lookup_table.md). -/

namespace Sys2Proof.Machine

/-- TABLE_LOOKUP (R173). CNT is ignored. -/
def execTableLookup (arg _cnt : Nat) (s : State) : Host.Outcome State Fault Refusal :=
  if arg = 0 then s.raise .domainError 0 0
  else if s.cfg.nmax < arg then s.raise .tableMiss 0 0
  else
    let row := romRow s.cfg (arg - 1)
    s.respond .ok row.1 row.2 ((row.2 - 1) / 2)

/-- TABLE_APPEND (R174). CNT is ignored. -/
def execTableAppend (arg _cnt : Nat) (s : State) : Host.Outcome State Fault Refusal :=
  if arg = 0 then s.raise .domainError 0 0
  else if s.cfg.nmax < arg then s.raise .tableMiss 0 0
  else
    let row := romRow s.cfg (arg - 1)
    match s.append (bitsOf row.2 row.1) with
    | .error r => s.raise r.status r.len r.aux
    | .ok t => t.respond .ok row.1 row.2 ((row.2 - 1) / 2)

end Sys2Proof.Machine
end

