-- ==== Sys2Proof/Machine/Dispatch.lean ====
section
/-! DEFINITION. One arm per command: the `exec` of 00_scope.md R16. -/

namespace Sys2Proof.Machine

/-- A command's whole effect on the state and its response (R16, R233). It does not look at the ports' state:
`step` calls it at the edge that accepts the command (entry 7). -/
def exec (i : Instr) (s : State) : Host.Outcome State Fault Refusal :=
  match i with
  | .query arg cnt => Sys2Proof.Machine.execQuery arg cnt s
  | .encode arg cnt => Sys2Proof.Machine.execEncode arg cnt s
  | .encodeAppend arg cnt => Sys2Proof.Machine.execEncodeAppend arg cnt s
  | .decode arg cnt => Sys2Proof.Machine.execDecode arg cnt s
  | .appendBit arg cnt => Sys2Proof.Machine.execAppendBit arg cnt s
  | .appendBits arg cnt => Sys2Proof.Machine.execAppendBits arg cnt s
  | .readBit arg cnt => Sys2Proof.Machine.execReadBit arg cnt s
  | .tableLookup arg cnt => Sys2Proof.Machine.execTableLookup arg cnt s
  | .tableAppend arg cnt => Sys2Proof.Machine.execTableAppend arg cnt s
  | .streamClear arg cnt => Sys2Proof.Machine.execStreamClear arg cnt s
  | .streamSeek arg cnt => Sys2Proof.Machine.execStreamSeek arg cnt s
  | .readByte arg cnt => Sys2Proof.Machine.execReadByte arg cnt s
  | .reservedC arg cnt => Sys2Proof.Machine.execReservedC arg cnt s
  | .reservedD arg cnt => Sys2Proof.Machine.execReservedD arg cnt s
  | .reservedE arg cnt => Sys2Proof.Machine.execReservedE arg cnt s
  | .reservedF arg cnt => Sys2Proof.Machine.execReservedF arg cnt s

end Sys2Proof.Machine
end

