-- ==== Sys2Proof/Machine/Ports.lean ====
section
/-! DEFINITION. The ports at a rising edge of clk (30_encoding.md R60): outputs, acceptance, latency, the response's
wait and reset (70_reset_and_hazards.md R220 to R223, R230 to R233). -/

namespace Sys2Proof.Machine

/-- Input pins of a host that asks for nothing. DESIGN CHOICE (entry 8): what is driven once the schedule is empty. -/
def pinsIdle : Pins := { rst := false, cmdValid := false, cmdWord := 0, rspReady := false }

/-- What the host drives at the coming edge. -/
def State.pinsNow (s : State) : Pins := s.pins.head?.getD pinsIdle

/-- The state once the coming edge's pins have been sampled. -/
def State.sampled (s : State) : State := { s with pins := s.pins.tail }

/-- The state with the ports in state p. -/
def State.withPort (s : State) (p : Port) : State := { s with port := p }

/-- cmd_ready: 1 when rst = 0 and no command is in progress or pending (R220, R231). Unspecified before the
first reset edge, where the model has 0 (entry 10). -/
def State.cmdReady (s : State) (rst : Bool) : Bool := !rst && decide (s.port = .ready)

/-- rsp_valid: 1 while a response is held, 0 while rst is 1 (R220, R232). -/
def State.rspValid (s : State) (rst : Bool) : Bool :=
  !rst && (match s.port with
    | .pending _ => true
    | .busy _ _ => false
    | .ready => false
    | .unreset => false)

/-- rsp_word while rsp_valid = 1 (R66, R232); no rule gives it otherwise (entry 16). -/
def State.rspWord (s : State) (rst : Bool) : Option Nat :=
  match s.rspValid rst, s.port with
  | true, .pending r => some (responseWord s.cfg r)
  | _, _ => none

/-- LAT of the command accepted last: finite and at least 1 (R10; entry 6). -/
def State.latency (s : State) : Nat := 1 + s.wait

/-- The state that accepts the command i, with its LAT fixed (R10; entry 6). -/
def State.timedFor (s : State) (i : Instr) : State :=
  { s with wait := Config.freeLatency s.cfg i s.buf s.wlen s.rpos s.draws }

/-- What a rising edge does: accept a command, change only the interface state, or have no rule. -/
inductive Edge where
  | accept (i : Instr) (s : State)
  | quiet (s : State)
  | noRule (r : Refusal)
  deriving DecidableEq, Repr

/-- One rising edge of clk. Reset wins (R212, R222). A command is accepted when rst = 0, cmd_valid = 1 and
cmd_ready = 1 (R230); its response becomes valid LAT edges later (R232; entry 13) and is held until an edge with
rsp_ready = 1. -/
def State.edge (s : State) : Edge :=
  let pins := s.pinsNow
  let t := s.sampled
  if pins.rst then .quiet t.resetEdge
  else
    match s.port with
    | .unreset => .noRule .beforeFirstReset
    | .ready =>
      if pins.cmdValid then
        let i := decode s.cfg pins.cmdWord
        .accept i (t.timedFor i)
      else .quiet t
    | .busy r elapsed =>
      if s.latency ≤ elapsed + 1 then .quiet (t.withPort (.pending r))
      else .quiet (t.withPort (.busy r (elapsed + 1)))
    | .pending _ => if pins.rspReady then .quiet (t.withPort .ready) else .quiet t

/-- The state in which the host offers the command word at the coming edge and the EGC can accept it
(R230; entry 9). -/
def State.offering (s : State) (word : Nat) : State :=
  { s with
    port := .ready
    pins := { rst := false, cmdValid := true, cmdWord := word, rspReady := false } :: s.pins }

end Sys2Proof.Machine
end

