-- ==== Sys2Proof/Machine/Step.lean ====
section
/-! DEFINITION. One step: one rising edge of clk (70_reset_and_hazards.md R230 to R233). -/

namespace Sys2Proof.Machine

/-- One rising edge of clk. The whole effect of a command happens at the edge that accepts it (R233; entry 7). -/
def step (s : State) : Host.Outcome State Fault Refusal :=
  match s.edge with
  | .accept i t => exec i t
  | .quiet t => .next t
  | .noRule r => .refused r

/-- s with the command whose low `nbits` bits are w offered at the coming edge (entry 9). -/
def State.withFetchWord (s : State) (nbits w : Nat) : State := s.offering (w % 2 ^ nbits)

end Sys2Proof.Machine
end

