-- ==== Sys2Proof/Machine/Assembler.lean ====
section
/-! DEFINITION. The spec's notation for commands: assembler syntax and pseudo-commands (30_encoding.md R71, R72).
No command and no step depends on it. -/

namespace Sys2Proof.Machine

/-- Which command fields a line's operands fill, in their order; the other fields are 0 (R71). -/
inductive OperandShape where
  | none
  | arg
  | cnt
  | argCnt
  deriving DecidableEq, Repr

/-- A mnemonic, its operands and its OP value. -/
structure AsmRow where
  mnemonic : String
  shape : OperandShape
  op : Fin 16
  deriving DecidableEq, Repr

/-- The syntax of R71, then the pseudo-commands of R72. -/
def asmTable : List AsmRow :=
  [⟨"QUERY", .none, 0x0⟩, ⟨"ENCODE", .arg, 0x1⟩, ⟨"ENCODE_APPEND", .arg, 0x2⟩, ⟨"DECODE", .none, 0x3⟩,
   ⟨"APPEND_BIT", .arg, 0x4⟩, ⟨"APPEND_BITS", .argCnt, 0x5⟩, ⟨"READ_BIT", .none, 0x6⟩,
   ⟨"TABLE_LOOKUP", .arg, 0x7⟩, ⟨"TABLE_APPEND", .arg, 0x8⟩, ⟨"STREAM_CLEAR", .none, 0x9⟩,
   ⟨"STREAM_SEEK", .cnt, 0xA⟩, ⟨"READ_BYTE", .cnt, 0xB⟩] ++
  [⟨"REWIND", .none, 0xA⟩, ⟨"APPEND_ZEROS", .cnt, 0x5⟩, ⟨"APPEND_CODE", .argCnt, 0x5⟩]

/-- The value of one digit, up to base 16. -/
def digitValue (c : Char) : Option Nat :=
  let n := c.toNat
  if 48 ≤ n ∧ n ≤ 57 then some (n - 48)
  else if 65 ≤ n ∧ n ≤ 70 then some (n - 55)
  else if 97 ≤ n ∧ n ≤ 102 then some (n - 87)
  else none

/-- The number the digits write in this base, after the digits that gave `acc`. -/
def digits (base acc : Nat) : List Char → Option Nat
  | [] => some acc
  | c :: rest =>
    match digitValue c with
    | some d => if d < base then digits base (base * acc + d) rest else none
    | none => none

/-- An operand: decimal, `0x` hexadecimal or `0b` binary (R71). -/
def literal : List Char → Option Nat
  | [] => none
  | ['0', 'x'] => none
  | ['0', 'b'] => none
  | '0' :: 'x' :: ds => digits 16 0 ds
  | '0' :: 'b' :: ds => digits 2 0 ds
  | ds => digits 10 0 ds

/-- The words of a line; spaces and commas stand between them (entry 20). -/
def tokens : List Char → List (List Char)
  | [] => []
  | c :: rest =>
    if c = ' ' ∨ c = ',' then [] :: tokens rest
    else
      match tokens rest with
      | [] => [[c]]
      | w :: ws => (c :: w) :: ws

/-- The command a row's operands make. -/
def AsmRow.build (row : AsmRow) : List Nat → Option Instr
  | [] => match row.shape with
    | .none => some (fromOpcode row.op 0 0)
    | _ => none
  | [x] => match row.shape with
    | .arg => some (fromOpcode row.op x 0)
    | .cnt => some (fromOpcode row.op 0 x)
    | _ => none
  | [x, y] => match row.shape with
    | .argCnt => some (fromOpcode row.op x y)
    | _ => none
  | _ => none

/-- The command a line of assembler writes, if it is one (R71, R72). -/
def assemble (line : String) : Option Instr :=
  match (tokens line.toList).filter (fun w => !w.isEmpty) with
  | [] => none
  | m :: operands =>
    match asmTable.find? (fun row => row.mnemonic.toList == m), operands.mapM literal with
    | some row, some values => row.build values
    | _, _ => none

end Sys2Proof.Machine
end

