-- ==== Sys2Proof/Safety.lean ====
section
/-! DEFINITION. What a legal state is (10_state.md R25 and the widths of R20 to R23, R28, R66). -/

namespace Sys2Proof.Machine

/-- 0 ≤ RPOS ≤ WLEN ≤ CAP (R25). -/
abbrev State.CursorsOk (s : State) : Prop := s.rpos ≤ s.wlen ∧ s.wlen ≤ s.cfg.cap

/-- The response's fields fit their widths (R66) and its status is one a response may carry (R203). -/
abbrev Response.Fits (cfg : Config) (r : Response) : Prop :=
  r.value < 2 ^ cfg.nw ∧ r.len < 2 ^ cfg.cw ∧ r.aux < 2 ^ cfg.cw ∧ r.status ≠ .invalidTableRange

/-- The held response, if any, fits. -/
abbrev State.ResponseOk (s : State) : Prop := ∀ r ∈ s.response, r.Fits s.cfg

/-- The Decoder's working registers fit their widths (R121). -/
abbrev State.DecoderOk (s : State) : Prop :=
  s.decoder.p < 2 ^ s.cfg.cw ∧ s.decoder.e < 2 ^ s.cfg.cw ∧ s.decoder.r < 2 ^ s.cfg.nw ∧ s.decoder.k < 2 ^ s.cfg.cw

/-- No bit at a position at or past CAP, which does not exist (20_memory.md R49), is set. -/
def Memory.within (cap : Nat) (m : Memory) : Bool :=
  m.all fun c => (List.range 8).all fun j => decide (8 * c.1 + j < cap) || !c.2.getLsbD (7 - j)

/-- A legal state: a legal configuration, R25, the buffer's canonical form, nothing past CAP, and every register
and held response within its width. -/
abbrev State.Inv (s : State) : Prop :=
  s.cfg.Legal ∧ s.CursorsOk ∧ s.buf.wf = true ∧ s.buf.within s.cfg.cap = true ∧ s.DecoderOk ∧ s.ResponseOk

end Sys2Proof.Machine
end

