-- ==== Sys2Proof/Certificates/Slice0/Obligations.lean ====
section
/-! DEFINITION. The statements for the provers, in the order of the spec's files. -/

open Sys2Proof Sys2Proof.Machine

/-! ## Encoding (30_encoding.md) -/

/-- R62, R65: a well-formed command's word decodes to that command, for every configuration and every
operand value the fields admit. -/
def Obligations.DecodeOfEncode : Prop :=
  ∀ (cfg : Config) (i : Instr), WellFormed cfg i → decode cfg (encode cfg i) = i

/-- R62, R70: every CMDW-bit word is the word of the command it decodes to. -/
def Obligations.EncodeOfDecode : Prop :=
  ∀ (cfg : Config) (w : Nat), w < 2 ^ cfg.cmdw → encode cfg (decode cfg w) = w

/-- R62, R70: decoding is total, gives a well-formed command, and reads exactly the three fields
cmd_word[3:0], cmd_word[NW+3:4] and cmd_word[NW+CW+3:NW+4]; a command's word is the sum of its fields. -/
def Obligations.DecodeReadsTheFields : Prop :=
  (∀ (cfg : Config) (w : Nat),
    WellFormed cfg (decode cfg w) ∧ opcode (decode cfg w) = w % 16 ∧
      (decode cfg w).arg = w / 16 % 2 ^ cfg.nw ∧ (decode cfg w).cnt = w / 2 ^ (cfg.nw + 4) % 2 ^ cfg.cw) ∧
  ∀ (cfg : Config) (i : Instr), WellFormed cfg i →
    encode cfg i = i.cnt * 2 ^ (cfg.nw + 4) + i.arg * 2 ^ 4 + opcode i ∧ encode cfg i < 2 ^ cfg.cmdw

/-- R73: the four worked commands have their words and the response to ENCODE 6 has its word. With
95_test_vectors.md section 2: words written out from R62's layout decode to their commands. -/
def Obligations.WorkedCommandWords : Prop :=
  (assemble "ENCODE 6").map (encode Config.default) = some 0x0000000000061 ∧
  (assemble "APPEND_BITS 0b110, 3").map (encode Config.default) = some 0x0003000000065 ∧
  (assemble "STREAM_SEEK 0").map (encode Config.default) = some 0x000000000000A ∧
  (assemble "READ_BYTE 1").map (encode Config.default) = some 0x000100000000B ∧
  (∀ s : State, exec (.encode 6 0) s = .next (s.answered ⟨.ok, 6, 5, 2⟩)) ∧
  responseWord Config.default ⟨.ok, 6, 5, 2⟩ = 0x00020005000000060 ∧
  decode Config.default 0x0000000000061 = .encode 6 0 ∧
  decode Config.default 0x0003000000065 = .appendBits 6 3 ∧
  decode Config.default 0x000000000000A = .streamSeek 0 0 ∧
  decode Config.default 0x000100000000B = .readByte 0 1 ∧
  decode Config.default 0x0000000001007 = .tableLookup 256 0 ∧
  decode Config.default 0x0000FFFFFFFF2 = .encodeAppend 0xFFFFFFFF 0 ∧
  decode Config.default 0xFFFFFFFFFFFFF = .reservedF 0xFFFFFFFF 0xFFFF

/-- R66: a response word has RSPW bits and its four fields are those of the response. -/
def Obligations.ResponseWordHoldsItsFields : Prop :=
  ∀ (cfg : Config) (r : Response), r.Fits cfg →
    responseWord cfg r < 2 ^ rspw cfg ∧
    bitField (responseWord cfg r) 0 4 = r.status.code ∧
    bitField (responseWord cfg r) 4 cfg.nw = r.value ∧
    bitField (responseWord cfg r) (cfg.nw + 4) cfg.cw = r.len ∧
    bitField (responseWord cfg r) (cfg.nw + cfg.cw + 4) cfg.cw = r.aux

/-- R64, R63: a field a command ignores changes nothing; of ARG, APPEND_BIT reads bit 0 only. -/
def Obligations.IgnoredFieldsDoNothing : Prop :=
  ∀ (s : State) (a c a' c' : Nat),
    exec (.query a c) s = exec (.query a' c') s ∧
    exec (.encode a c) s = exec (.encode a c') s ∧
    exec (.encodeAppend a c) s = exec (.encodeAppend a c') s ∧
    exec (.decode a c) s = exec (.decode a' c') s ∧
    (a % 2 = a' % 2 → exec (.appendBit a c) s = exec (.appendBit a' c') s) ∧
    exec (.readBit a c) s = exec (.readBit a' c') s ∧
    exec (.tableLookup a c) s = exec (.tableLookup a c') s ∧
    exec (.tableAppend a c) s = exec (.tableAppend a c') s ∧
    exec (.streamClear a c) s = exec (.streamClear a' c') s ∧
    exec (.streamSeek a c) s = exec (.streamSeek a' c) s ∧
    exec (.readByte a c) s = exec (.readByte a' c) s ∧
    exec (.reservedC a c) s = exec (.reservedC a' c') s ∧
    exec (.reservedD a c) s = exec (.reservedD a' c') s ∧
    exec (.reservedE a c) s = exec (.reservedE a' c') s ∧
    exec (.reservedF a c) s = exec (.reservedF a' c') s

/-- R69, R209: the four reserved opcodes answer (ILLEGAL_COMMAND, 0, 0, 0) and change nothing else. -/
def Obligations.ReservedOpcodesAreIllegalCommands : Prop :=
  ∀ (s : State) (a c : Nat),
    ∀ i ∈ [Instr.reservedC a c, .reservedD a c, .reservedE a c, .reservedF a c],
      0xC ≤ opcode i ∧ opcode i ≤ 0xF ∧ exec i s = .next (s.answered ⟨.illegalCommand, 0, 0, 0⟩)

/-- R72: each pseudo-command is the one command it expands to. -/
def Obligations.PseudoCommandsExpand : Prop :=
  assemble "REWIND" = assemble "STREAM_SEEK 0" ∧ assemble "REWIND" = some (.streamSeek 0 0) ∧
  assemble "APPEND_ZEROS 31" = assemble "APPEND_BITS 0, 31" ∧
  assemble "APPEND_ZEROS 31" = some (.appendBits 0 31) ∧
  assemble "APPEND_CODE 0x6, 0b101" = assemble "APPEND_BITS 6, 5" ∧
  assemble "APPEND_CODE 0x6, 0b101" = some (.appendBits 6 5)

/-! ## The codeword (40_codeword.md) -/

/-- R90, R91, R92, R93: for an NW-bit n ≥ 1, e(n) is the position of its highest set bit and below NW, the
remainder is below 2^e, the length is 2e + 1, odd and at most LMAX, and the codeword is e zeros, a 1 and e bits
that are worth r. -/
def Obligations.CodewordShape : Prop :=
  ∀ (cfg : Config) (n : Nat), 1 ≤ n → n < 2 ^ cfg.nw →
    2 ^ exponent n ≤ n ∧ n < 2 ^ (exponent n + 1) ∧ exponent n + 1 ≤ cfg.nw ∧
    n = 2 ^ exponent n + remainder n ∧ remainder n < 2 ^ exponent n ∧
    codeLength n = 2 * exponent n + 1 ∧ codeLength n ≤ lmax cfg ∧
    ∃ tail : Bits, codeword n = List.replicate (exponent n) false ++ true :: tail ∧
      tail.length = exponent n ∧ valOf tail = remainder n

/-- R94: the codeword is n written in L(n) binary digits, so its value is n. -/
def Obligations.CodewordIsPackedValue : Prop :=
  ∀ n : Nat, 1 ≤ n → valOf (codeword n) = n ∧ codeword n = bitsOf (codeLength n) n

/-- R95: no codeword is a prefix of another, and a codeword that starts with exactly z zeros and a 1 has length
2z + 1 and its remainder in the z bits after that 1. -/
def Obligations.CodewordsArePrefixFree : Prop :=
  (∀ m n : Nat, 1 ≤ m → 1 ≤ n → m ≠ n → ¬ codeword m <+: codeword n) ∧
  ∀ (n z : Nat) (rest : Bits), 1 ≤ n → codeword n = List.replicate z false ++ true :: rest →
    (codeword n).length = 2 * z + 1 ∧ rest.length = z ∧ valOf rest = remainder n

/-- R96: lengths do not decrease, and exactly the integers 2^e .. 2^(e+1) - 1 have length 2e + 1. -/
def Obligations.CodeLengthMonotoneAndCounted : Prop :=
  (∀ m n : Nat, 1 ≤ m → m < n → codeLength m ≤ codeLength n) ∧
  ∀ n e : Nat, 1 ≤ n → (codeLength n = 2 * e + 1 ↔ 2 ^ e ≤ n ∧ n < 2 ^ (e + 1))

/-- R98: gdec(cw(n) ++ t) = OK(n, L(n)) for every NW-bit n ≥ 1 and every t. -/
def Obligations.GdecInvertsCodeword : Prop :=
  ∀ (nw n : Nat) (t : Bits), 1 ≤ n → n < 2 ^ nw → gdec nw (codeword n ++ t) = .ok n (codeLength n)

/-! ## Encoder commands (41_encoder.md) -/

/-- R101: ENCODE answers (OK, n, L, e) with e = floor(log2 n), or DOMAIN_ERROR for n = 0, and changes nothing else. -/
def Obligations.EncodeAnswersPackedCodeword : Prop :=
  ∀ (s : State) (n c : Nat), opcode (.encode n c) = 0x1 ∧
    (n ≠ 0 → exec (.encode n c) s = .next (s.answered ⟨.ok, n, 2 * Nat.log2 n + 1, Nat.log2 n⟩)) ∧
    (n = 0 → exec (.encode n c) s = .next (s.answered ⟨.domainError, 0, 0, 0⟩))

/-- R102: ENCODE_APPEND appends cw(n) and answers as ENCODE; DOMAIN_ERROR comes before CAPACITY_ERROR, and on
either nothing is appended. -/
def Obligations.EncodeAppendExtendsStream : Prop :=
  ∀ (s : State) (n c : Nat), s.Inv →
    opcode (.encodeAppend n c) = 0x2 ∧
    (n ≠ 0 → s.wlen + codeLength n ≤ s.cfg.cap → ∃ t, exec (.encodeAppend n c) s = .next t ∧
      t.response = some ⟨.ok, n, codeLength n, exponent n⟩ ∧ t.stream = s.stream ++ codeword n ∧
      t.wlen = s.wlen + codeLength n ∧ t.rpos = s.rpos ∧ t.atEnd = false) ∧
    (n = 0 → exec (.encodeAppend n c) s = .next (s.answered ⟨.domainError, 0, 0, 0⟩)) ∧
    (n ≠ 0 → s.cfg.cap < s.wlen + codeLength n → exec (.encodeAppend n c) s =
      .next (s.answered ⟨.capacityError, 0, codeLength n, s.cfg.cap - s.wlen⟩))

/-- R103: ENCODE_APPEND leaves the state of ENCODE followed, where ENCODE succeeds, by APPEND_BITS n, L; it answers
as the ENCODE where the codeword fits and as the APPEND_BITS where it does not. Where ENCODE fails, it is ENCODE. -/
def Obligations.EncodeAppendIsEncodeThenAppendBits : Prop :=
  ∀ (s : State) (n c c' : Nat),
    (n = 0 → exec (.encodeAppend n c) s = exec (.encode n c') s) ∧
    (n ≠ 0 → ∃ t u v,
      exec (.encode n c') s = .next t ∧ exec (.appendBits n (codeLength n)) t = .next u ∧
      exec (.encodeAppend n c) s = .next v ∧
      v.buf = u.buf ∧ v.wlen = u.wlen ∧ v.rpos = u.rpos ∧
      (s.wlen + codeLength n ≤ s.cfg.cap → v.response = t.response) ∧
      (s.cfg.cap < s.wlen + codeLength n → v.response = u.response))

/-! ## Decoder command (42_decoder.md) -/

/-- R121, R98: the reference state machine gives the results of the pure decoding function, on every
unread stream. -/
def Obligations.DecoderMachineComputesGdec : Prop :=
  ∀ (nw rpos : Nat) (unread : Bits), 1 ≤ nw →
    runDecoder nw rpos unread =
      match gdec nw unread with
      | .overflow => .overflow
      | .truncated phase consumed => .truncated phase consumed
      | .ok n bitsConsumed => .done n bitsConsumed

/-- R122: DECODE answers what gdec says of the unread stream and advances RPOS on success only. -/
def Obligations.DecodeFollowsGdec : Prop :=
  ∀ (s : State) (a c : Nat), s.Inv →
    opcode (.decode a c) = 0x3 ∧ ∃ t, exec (.decode a c) s = .next t ∧ t.stream = s.stream ∧ t.wlen = s.wlen ∧
      match gdec s.cfg.nw s.unread with
      | .overflow => t.response = some ⟨.decodeOverflow, 0, s.cfg.nw, 0⟩ ∧ t.rpos = s.rpos
      | .truncated .unary k => t.response = some ⟨.truncatedStream, 0, k, 0⟩ ∧ t.rpos = s.rpos
      | .truncated .binary k => t.response = some ⟨.truncatedStream, 0, k, 1⟩ ∧ t.rpos = s.rpos
      | .truncated .done _ => False
      | .ok n m => t.response = some ⟨.ok, n, m, (m - 1) / 2⟩ ∧ t.rpos = s.rpos + m

/-- R126: where the unread stream starts with cw(n), DECODE answers (OK, n, L(n), e(n)) and advances RPOS by L(n);
in particular ENCODE_APPEND n on a state with RPOS = WLEN and then DECODE gives n back and leaves RPOS = WLEN again. -/
def Obligations.EncodeAppendThenDecodeRoundTrip : Prop :=
  (∀ (s : State) (n a c : Nat) (rest : Bits), s.Inv → 1 ≤ n → n < 2 ^ s.cfg.nw →
    s.unread = codeword n ++ rest → ∃ t, exec (.decode a c) s = .next t ∧
      t.response = some ⟨.ok, n, codeLength n, exponent n⟩ ∧ t.rpos = s.rpos + codeLength n ∧
      t.wlen = s.wlen ∧ t.unread = rest) ∧
  ∀ (s : State) (n a c c' : Nat), s.Inv → s.rpos = s.wlen → 1 ≤ n → n < 2 ^ s.cfg.nw →
    s.wlen + codeLength n ≤ s.cfg.cap → ∃ t u,
      exec (.encodeAppend n c') s = .next t ∧ exec (.decode a c) t = .next u ∧
      u.response = some ⟨.ok, n, codeLength n, exponent n⟩ ∧ u.rpos = u.wlen

/-- R124: a stream that ends in the unary phase, and one that ends in the binary phase, give TRUNCATED_STREAM
with LEN = WLEN - RPOS and the phase, and leave RPOS where it was. -/
def Obligations.TruncatedDecodeConsumesNothing : Prop :=
  ∀ (s : State) (z a c : Nat), s.Inv → z < s.cfg.nw →
    (s.unread = List.replicate z false → ∃ t, exec (.decode a c) s = .next t ∧
      t.response = some ⟨.truncatedStream, 0, s.wlen - s.rpos, 0⟩ ∧ t.rpos = s.rpos ∧ t.wlen = s.wlen) ∧
    (∀ rest : Bits, rest.length < z → s.unread = List.replicate z false ++ true :: rest →
      ∃ t, exec (.decode a c) s = .next t ∧
        t.response = some ⟨.truncatedStream, 0, s.wlen - s.rpos, 1⟩ ∧ t.rpos = s.rpos ∧ t.wlen = s.wlen)

/-- R125, R206: NW zeros give DECODE_OVERFLOW whatever follows them, the end of the stream too, and leave RPOS. -/
def Obligations.DecodeOverflowsAtNwZeros : Prop :=
  ∀ (s : State) (a c : Nat) (rest : Bits), s.Inv → s.unread = List.replicate s.cfg.nw false ++ rest →
    ∃ t, exec (.decode a c) s = .next t ∧ t.response = some ⟨.decodeOverflow, 0, s.cfg.nw, 0⟩ ∧
      t.rpos = s.rpos ∧ t.wlen = s.wlen

/-- R242: bits appended after a truncated DECODE complete the codeword, and the retried DECODE reads all of it. -/
def Obligations.TruncatedDecodeCanBeRetried : Prop :=
  ∀ (s : State) (n v k : Nat) (rest : Bits), s.Inv → 1 ≤ n → n < 2 ^ s.cfg.nw →
    s.unread.length < codeLength n → s.unread ++ bitsOf k v = codeword n ++ rest → s.wlen + k ≤ s.cfg.cap →
    ∃ t u w, exec (.decode 0 0) s = .next t ∧ exec (.appendBits v k) t = .next u ∧ exec (.decode 0 0) u = .next w ∧
      (t.response.map Response.status) = some .truncatedStream ∧ t.rpos = s.rpos ∧
      w.response = some ⟨.ok, n, codeLength n, exponent n⟩ ∧ w.rpos = s.rpos + codeLength n

/-! ## Bitstream commands (43_bitstream.md) -/

/-- R145: APPEND_BIT appends ARG[0] and answers the new WLEN, or CAPACITY_ERROR with LEN = 1, AUX = 0 when
WLEN = CAP. -/
def Obligations.AppendBitExtendsStream : Prop :=
  ∀ (s : State) (a c : Nat), s.Inv →
    opcode (.appendBit a c) = 0x4 ∧
    (s.wlen < s.cfg.cap → ∃ t, exec (.appendBit a c) s = .next t ∧ t.response = some ⟨.ok, 0, s.wlen + 1, 0⟩ ∧
      t.stream = s.stream ++ [decide (a % 2 = 1)] ∧ t.wlen = s.wlen + 1 ∧ t.rpos = s.rpos ∧ t.atEnd = false) ∧
    (s.wlen = s.cfg.cap → exec (.appendBit a c) s = .next (s.answered ⟨.capacityError, 0, 1, 0⟩))

/-- R148: APPEND_BITS v, k keeps the stream and puts v[k-1-i] at its new position i, for i < k; ATEND becomes 0
where k > 0; CAPACITY_ERROR with LEN = k and AUX = CAP - WLEN where they do not fit. -/
def Obligations.AppendBitsExtendsStream : Prop :=
  ∀ (s : State) (v k : Nat), s.Inv →
    opcode (.appendBits v k) = 0x5 ∧
    (s.wlen + k ≤ s.cfg.cap → ∃ t, exec (.appendBits v k) s = .next t ∧
      t.response = some ⟨.ok, 0, s.wlen + k, 0⟩ ∧ t.wlen = s.wlen + k ∧ t.rpos = s.rpos ∧
      (0 < k → t.atEnd = false) ∧
      (∀ p < s.wlen, t.stream[p]? = s.stream[p]?) ∧
      (∀ i < k, t.stream[s.wlen + i]? = some (v.testBit (k - 1 - i)))) ∧
    (s.cfg.cap < s.wlen + k → exec (.appendBits v k) s =
      .next (s.answered ⟨.capacityError, 0, k, s.cfg.cap - s.wlen⟩))

/-- R151: READ_BIT answers the bit at RPOS with RPOS and ATEND after the read, or END_OF_STREAM when RPOS = WLEN. -/
def Obligations.ReadBitTakesNextBit : Prop :=
  ∀ (s : State) (a c : Nat), s.Inv →
    opcode (.readBit a c) = 0x6 ∧
    (∀ b : Bool, s.stream[s.rpos]? = some b → ∃ t, exec (.readBit a c) s = .next t ∧
      t.response = some ⟨.ok, b.toNat, s.rpos + 1, if s.rpos + 1 = s.wlen then 1 else 0⟩ ∧
      t.rpos = s.rpos + 1 ∧ t.wlen = s.wlen ∧ t.stream = s.stream) ∧
    (s.rpos = s.wlen → exec (.readBit a c) s = .next (s.answered ⟨.endOfStream, 0, 0, 0⟩))

/-- R154: QUERY answers (OK, ATEND, WLEN, RPOS) and changes nothing else. -/
def Obligations.QueryReportsTheStream : Prop :=
  ∀ (s : State) (a c : Nat), 1 ≤ s.cfg.nw →
    opcode (.query a c) = 0x0 ∧
    exec (.query a c) s = .next (s.answered ⟨.ok, if s.rpos = s.wlen then 1 else 0, s.wlen, s.rpos⟩)

/-- R155: STREAM_CLEAR sets WLEN and RPOS to 0, makes ATEND 1, answers (OK, 0, 0, 0) and does not clear BUF. -/
def Obligations.StreamClearEmptiesTheStream : Prop :=
  ∀ (s : State) (a c : Nat), opcode (.streamClear a c) = 0x9 ∧ ∃ t, exec (.streamClear a c) s = .next t ∧
    t.response = some ⟨.ok, 0, 0, 0⟩ ∧ t.wlen = 0 ∧ t.rpos = 0 ∧ t.stream = [] ∧ t.atEnd = true ∧
    ∀ p, t.buf.bit p = s.buf.bit p

/-- R155, R21: after STREAM_CLEAR every command answers as it does from the reset state and leaves the same
stream and cursor. -/
def Obligations.ClearedLooksReset : Prop :=
  ∀ (s t : State) (a c : Nat) (i : Instr), s.Inv → exec (.streamClear a c) s = .next t →
    ∃ u v, exec i t = .next u ∧ exec i (State.resetFor s.cfg) = .next v ∧
      u.response = v.response ∧ u.stream = v.stream ∧ u.wlen = v.wlen ∧ u.rpos = v.rpos

/-- R157: STREAM_SEEK p sets RPOS to p for p ≤ WLEN and answers (OK, 0, WLEN, p), or POSITION_RANGE. -/
def Obligations.StreamSeekSetsTheCursor : Prop :=
  ∀ (s : State) (a p : Nat),
    opcode (.streamSeek a p) = 0xA ∧
    (p ≤ s.wlen → ∃ t, exec (.streamSeek a p) s = .next t ∧ t.response = some ⟨.ok, 0, s.wlen, p⟩ ∧
      t.rpos = p ∧ t.wlen = s.wlen ∧ t.stream = s.stream ∧ t.atEnd = decide (p = s.wlen)) ∧
    (s.wlen < p → exec (.streamSeek a p) s = .next (s.answered ⟨.positionRange, 0, s.wlen, 0⟩))

/-- R160, R42: READ_BYTE k answers the byte whose bit 7 - j is stream position 8k + j, or 0 at and past WLEN, and
ceil8(WLEN). Where the byte does not fit NW bits (NW < 8) its VALUE is a free value (entry 12). -/
def Obligations.ReadByteShowsEightPositions : Prop :=
  ∀ (s : State) (a k : Nat), s.Inv →
    opcode (.readByte a k) = 0xB ∧
    (8 * k < s.wlen → ∃ byte value,
      exec (.readByte a k) s = .next (s.answered ⟨.ok, value, (s.wlen + 7) / 8, 0⟩) ∧
      byte < 256 ∧ (byte < 2 ^ s.cfg.nw → value = byte) ∧
      ∀ j < 8, byte.testBit (7 - j) = (s.stream[8 * k + j]?).getD false) ∧
    (s.wlen ≤ 8 * k → exec (.readByte a k) s =
      .next (s.answered ⟨.positionRange, 0, (s.wlen + 7) / 8, 0⟩))

/-! ## The code-table ROM (44_lookup_table.md) -/

/-- R170, R171: every ROM word fits PW + LWR bits, its fields hold and are wide enough for the pair (i + 1, L(i + 1)),
and the default widths are PW = 9 and LWR = 5. -/
def Obligations.RomRowsHoldTheEncoderPairs : Prop :=
  (∀ (cfg : Config) (i : Nat), i < cfg.nmax →
    romWord cfg i < 2 ^ (pw cfg + lwr cfg) ∧ romRow cfg i = (i + 1, codeLength (i + 1)) ∧
    romWord cfg i = codeLength (i + 1) * 2 ^ pw cfg + (i + 1) ∧
    bitField (romWord cfg i) 0 (pw cfg) = i + 1 ∧ bitField (romWord cfg i) (pw cfg) (lwr cfg) = codeLength (i + 1) ∧
    cfg.nmax < 2 ^ pw cfg ∧ codeLength (i + 1) ≤ 2 * (pw cfg - 1) + 1 ∧ 2 * (pw cfg - 1) + 1 < 2 ^ lwr cfg) ∧
  pw Config.default = 9 ∧ lwr Config.default = 5

/-- R173: TABLE_LOOKUP answers (OK, packed, len, (len-1)/2) of ROM row n - 1, which is (n, L(n)); DOMAIN_ERROR for
0 and TABLE_MISS above NMAX; it changes nothing else. -/
def Obligations.TableLookupAnswersTheRow : Prop :=
  ∀ (s : State) (n c : Nat),
    opcode (.tableLookup n c) = 0x7 ∧
    (1 ≤ n → n ≤ s.cfg.nmax → exec (.tableLookup n c) s =
      .next (s.answered ⟨.ok, n, codeLength n, (codeLength n - 1) / 2⟩)) ∧
    (n = 0 → exec (.tableLookup n c) s = .next (s.answered ⟨.domainError, 0, 0, 0⟩)) ∧
    (n ≠ 0 → s.cfg.nmax < n → exec (.tableLookup n c) s = .next (s.answered ⟨.tableMiss, 0, 0, 0⟩))

/-- R174: TABLE_APPEND appends the row's codeword and answers as TABLE_LOOKUP; DOMAIN_ERROR, then TABLE_MISS, then
CAPACITY_ERROR, on each of which nothing is appended. -/
def Obligations.TableAppendExtendsStream : Prop :=
  ∀ (s : State) (n c : Nat), s.Inv →
    opcode (.tableAppend n c) = 0x8 ∧
    (1 ≤ n → n ≤ s.cfg.nmax → s.wlen + codeLength n ≤ s.cfg.cap → ∃ t, exec (.tableAppend n c) s = .next t ∧
      t.response = some ⟨.ok, n, codeLength n, (codeLength n - 1) / 2⟩ ∧ t.stream = s.stream ++ codeword n ∧
      t.wlen = s.wlen + codeLength n ∧ t.rpos = s.rpos ∧ t.atEnd = false) ∧
    (n = 0 → exec (.tableAppend n c) s = .next (s.answered ⟨.domainError, 0, 0, 0⟩)) ∧
    (n ≠ 0 → s.cfg.nmax < n → exec (.tableAppend n c) s = .next (s.answered ⟨.tableMiss, 0, 0, 0⟩)) ∧
    (1 ≤ n → n ≤ s.cfg.nmax → s.cfg.cap < s.wlen + codeLength n → exec (.tableAppend n c) s =
      .next (s.answered ⟨.capacityError, 0, codeLength n, s.cfg.cap - s.wlen⟩))

/-- R175: for 1 ≤ n ≤ NMAX the table commands and the Encoder commands have equal results, and both lookups leave the
state; for n = 0 all four give DOMAIN_ERROR; above NMAX the table commands miss and leave the stream, while ENCODE
succeeds, and ENCODE_APPEND where the codeword fits. -/
def Obligations.TableAgreesWithEncoder : Prop :=
  ∀ (s : State) (n c c' : Nat),
    (1 ≤ n → n ≤ s.cfg.nmax →
      (∃ r, exec (.tableLookup n c) s = .next (s.answered r) ∧ exec (.encode n c') s = .next (s.answered r)) ∧
      exec (.tableAppend n c) s = exec (.encodeAppend n c') s) ∧
    (n = 0 → ∀ i ∈ [Instr.tableLookup n c, .encode n c', .tableAppend n c, .encodeAppend n c'],
      exec i s = .next (s.answered ⟨.domainError, 0, 0, 0⟩)) ∧
    (s.cfg.nmax < n →
      exec (.tableLookup n c) s = .next (s.answered ⟨.tableMiss, 0, 0, 0⟩) ∧
      exec (.tableAppend n c) s = .next (s.answered ⟨.tableMiss, 0, 0, 0⟩) ∧
      (∃ t, exec (.encode n c') s = .next t ∧ (t.response.map Response.status) = some .ok) ∧
      (s.wlen + codeLength n ≤ s.cfg.cap → ∃ t, exec (.encodeAppend n c') s = .next t ∧
        (t.response.map Response.status) = some .ok))

/-! ## Errors and frames (60_exceptions.md, 10_state.md R32) -/

/-- R15, R200: a command that reports an error has VALUE 0 and leaves BUF, WLEN and RPOS as they were. -/
def Obligations.ErrorsChangeNoState : Prop :=
  ∀ (i : Instr) (s t : State) (r : Response), exec i s = .next t → t.response = some r → r.status ≠ .ok →
    r.value = 0 ∧ t.buf = s.buf ∧ t.wlen = s.wlen ∧ t.rpos = s.rpos

/-- R210, R203: every completed command holds exactly one response, and its code is neither 4 nor 10 to 15. -/
def Obligations.EveryCommandHasOneStatus : Prop :=
  ∀ (i : Instr) (s t : State), exec i s = .next t →
    ∃ r, t.port = .busy r 0 ∧ r.status.code ≠ 4 ∧ r.status.code < 10

/-- The frame of QUERY, ENCODE, TABLE_LOOKUP, READ_BYTE and the reserved opcodes (R32): nothing is written. -/
def Obligations.ReadOnlyCommandsWriteNothing : Prop :=
  ∀ (a c : Nat) (s t : State),
    ∀ i ∈ [Instr.query a c, .encode a c, .tableLookup a c, .readByte a c, .reservedC a c, .reservedD a c,
      .reservedE a c, .reservedF a c],
      exec i s = .next t →
        t.cfg = s.cfg ∧ t.wlen = s.wlen ∧ t.rpos = s.rpos ∧ t.decoder = s.decoder ∧ t.pins = s.pins ∧
        ∀ p, t.buf.bit p = s.buf.bit p

/-- The frame of the four appends (R32, R140): only WLEN and the k positions from WLEN on are written, where k is
the number of bits the command appends; RPOS does not move. -/
def Obligations.AppendsWriteOnlyAtTheEnd : Prop :=
  ∀ (a c : Nat) (s t : State), s.buf.wf = true →
    ∀ ik ∈ [(Instr.encodeAppend a c, codeLength a), (.appendBit a c, 1), (.appendBits a c, c),
      (.tableAppend a c, (romRow s.cfg (a - 1)).2)],
      exec ik.1 s = .next t →
        t.cfg = s.cfg ∧ t.rpos = s.rpos ∧ t.decoder = s.decoder ∧ t.pins = s.pins ∧
        (t.wlen = s.wlen ∨ t.wlen = s.wlen + ik.2) ∧
        ∀ p, p < s.wlen ∨ s.wlen + ik.2 ≤ p → t.buf.bit p = s.buf.bit p

/-- The frame of READ_BIT, STREAM_SEEK, DECODE and STREAM_CLEAR (R32): no position of BUF is written; only
STREAM_CLEAR writes WLEN, and only DECODE the Decoder's working registers. -/
def Obligations.CursorCommandsKeepTheBuffer : Prop :=
  ∀ (a c : Nat) (s t : State),
    ∀ i ∈ [Instr.readBit a c, .streamSeek a c, .decode a c, .streamClear a c],
      exec i s = .next t →
        t.cfg = s.cfg ∧ t.pins = s.pins ∧ (i ≠ .streamClear a c → t.wlen = s.wlen) ∧
        (i ≠ .decode a c → t.decoder = s.decoder) ∧ ∀ p, t.buf.bit p = s.buf.bit p

/-- R22, R23: WLEN grows only by an append and falls only by STREAM_CLEAR, which makes it 0; RPOS is written only by
READ_BIT and DECODE, which advance it, STREAM_SEEK and STREAM_CLEAR. -/
def Obligations.OnlyNamedCommandsWriteWlenAndRpos : Prop :=
  ∀ (i : Instr) (s t : State), exec i s = .next t →
    (s.wlen < t.wlen → i ∈ [Instr.encodeAppend i.arg i.cnt, .appendBit i.arg i.cnt, .appendBits i.arg i.cnt,
      .tableAppend i.arg i.cnt]) ∧
    (t.wlen < s.wlen → i = .streamClear i.arg i.cnt ∧ t.wlen = 0) ∧
    (t.rpos ≠ s.rpos → (s.rpos < t.rpos ∧ (i = .readBit i.arg i.cnt ∨ i = .decode i.arg i.cnt)) ∨
      i = .streamSeek i.arg i.cnt ∨ (i = .streamClear i.arg i.cnt ∧ t.rpos = 0))

/-! ## The machine (10_state.md R16, R21, R25, R30) -/

/-- R30: the reset values, for every configuration: an empty stream, ATEND = 1, phase UNARY, no command in progress,
no response pending, the ROM rows; and QUERY after reset answers (OK, 1, 0, 0). -/
def Obligations.ResetLeavesAnEmptyStream : Prop :=
  State.reset = State.resetFor Config.default ∧
  ∀ (cfg : Config) (s : State), 1 ≤ cfg.nw → s = State.resetFor cfg →
    s.cfg = cfg ∧ s.wlen = 0 ∧ s.rpos = 0 ∧ s.atEnd = true ∧ s.stream = [] ∧ s.decoder.phase = .unary ∧
    s.port = .ready ∧ s.response = none ∧ (∀ i < cfg.nmax, romRow s.cfg i = (i + 1, codeLength (i + 1))) ∧
    ∃ t, exec (.query 0 0) s = .next t ∧ t.response = some ⟨.ok, 1, 0, 0⟩

/-- R25 and the widths: the reset state is legal. -/
def Obligations.ResetIsLegal : Prop := State.reset.Inv

/-- R25 and the widths: every step from a legal state, reachable or not, leaves a legal state: RPOS ≤ WLEN ≤ CAP,
the buffer canonical with nothing past CAP, every register and held response within its width. -/
def Obligations.StepKeepsStatesLegal : Prop :=
  ∀ s t : State, s.Inv → step s = .next t → t.Inv

/-- R16, R234: from a legal state every well-formed command completes, with a response and a legal next state. -/
def Obligations.EveryCommandCompletes : Prop :=
  ∀ (i : Instr) (s : State), s.Inv → WellFormed s.cfg i →
    ∃ t r, exec i s = .next t ∧ t.response = some r ∧ t.Inv

/-- R223, R70: from a legal state no step faults, and a step is refused only before the first reset edge. -/
def Obligations.StepNeverFaultsFromLegalStates : Prop :=
  ∀ s : State, s.Inv → (∀ f, step s ≠ .fault f) ∧
    ((∃ r, step s = .refused r) ↔ s.port = .unreset ∧ s.pinsNow.rst = false)

/-- R21: the bits of BUF at and past WLEN are never observable: two legal states with the same parameters, stream
and cursor give the same response to every command and keep the same stream and cursor. -/
def Obligations.BitsPastTheEndAreUnobservable : Prop :=
  ∀ (i : Instr) (s s' t : State), s.Inv → s'.Inv → s'.cfg = s.cfg → s'.stream = s.stream → s'.rpos = s.rpos →
    exec i s = .next t → ∃ t', exec i s' = .next t' ∧
      t'.response = t.response ∧ t'.stream = t.stream ∧ t'.rpos = t.rpos

/-- Entry 11: exactly the commands that would read a position at or past CAP fault, in every state: READ_BIT of such an
RPOS, DECODE of an unread stream, and READ_BYTE of a byte, that reaches past CAP. Every read of existing positions or of
none goes on, and no other command ever faults. The rules say only which positions exist; the fault is the model's. -/
def Obligations.ReadsPastCapFault : Prop :=
  (∀ (s : State) (a k : Nat),
    (exec (.readBit a k) s = .fault .positionOutsideBuffer ↔ s.rpos ≠ s.wlen ∧ s.cfg.cap ≤ s.rpos) ∧
    (exec (.decode a k) s = .fault .positionOutsideBuffer ↔ s.rpos < s.wlen ∧ s.cfg.cap < s.wlen) ∧
    (exec (.readByte a k) s = .fault .positionOutsideBuffer ↔
      8 * k < s.wlen ∧ s.cfg.cap < min (8 * k + 8) s.wlen) ∧
    (s.wlen ≤ s.rpos → ∃ t, exec (.decode a k) s = .next t ∧
      t.response = some ⟨.truncatedStream, 0, 0, 0⟩ ∧ t.rpos = s.rpos)) ∧
  ∀ (i : Instr) (s : State) (f : Fault), exec i s = .fault f →
    i = .readBit i.arg i.cnt ∨ i = .decode i.arg i.cnt ∨ i = .readByte i.arg i.cnt

/-- R221, R53: no step, and no reset edge, changes the parameters or a ROM row. -/
def Obligations.NothingWritesTheRom : Prop :=
  ∀ s t : State, step s = .next t → t.cfg = s.cfg ∧ ∀ i, romRow t.cfg i = romRow s.cfg i

/-! ## Elaboration, reset and the ports (60_exceptions.md R203, 70_reset_and_hazards.md) -/

/-- R203, R6: elaboration refuses exactly the configurations that break a constraint. -/
def Obligations.ElaborationRefusesIllegalConfigurations : Prop :=
  ∀ cfg : Config,
    ((cfg.nmax < 1 ∨ 2 ^ cfg.nw - 1 < cfg.nmax ∨ cfg.nw < 1 ∨ cfg.cap < 1 ∨ 2 ^ cfg.cw - 1 < cfg.cap ∨
      2 ^ cfg.cw - 1 < 2 * cfg.nw - 1) → elaborate cfg = .error .invalidTableRange) ∧
    (cfg.Legal → ∃ s, elaborate cfg = .ok s ∧ s.cfg = cfg)

/-- R223, R224: elaborated hardware has no step until a reset edge, which leaves the reset values that R30 gives; nothing
is said of BUF and the Decoder's p, e, r, k, whose values are the model's (entry 4). The refusal is entry 10's. -/
def Obligations.FirstEdgeMustReset : Prop :=
  ∀ (cfg : Config) (s : State) (p : Pins) (ps : List Pins), elaborate cfg = .ok s →
    (p.rst = false → step { s with pins := p :: ps } = .refused .beforeFirstReset) ∧
    (p.rst = true → ∃ t, step { s with pins := p :: ps } = .next t ∧ t.cfg = cfg ∧ t.wlen = 0 ∧ t.rpos = 0 ∧
      t.atEnd = true ∧ t.stream = [] ∧ t.decoder.phase = .unary ∧ t.port = .ready ∧ t.response = none ∧ t.pins = ps)

/-- R220, R222, R212: an edge with rst = 1 leaves the reset values from every state, also in the middle of a command
or with a response pending, and drops the response; while rst is 1, cmd_ready = rsp_valid = 0, and the next edge can
accept a command. -/
def Obligations.ResetEdgeWins : Prop :=
  ∀ s : State, s.pinsNow.rst = true →
    s.cmdReady true = false ∧ s.rspValid true = false ∧ ∃ t, step s = .next t ∧ t.cmdReady false = true ∧
    t.cfg = s.cfg ∧ t.wlen = 0 ∧ t.rpos = 0 ∧ t.stream = [] ∧ t.decoder.phase = .unary ∧ t.port = .ready ∧
    t.response = none

/-- R230, R233, R10: a step at an edge that accepts a command is `exec` of the decoded word on the state with the
sampled pins taken off the schedule and the command's LAT fixed, a free value of the command and that state (entry 6);
nothing else is added, and the command keeps that LAT. -/
def Obligations.StepRunsTheAcceptedCommand : Prop :=
  ∀ (s : State) (p : Pins) (ps : List Pins), s.port = .ready → s.pins = p :: ps → p.rst = false →
    p.cmdValid = true →
    let i := decode s.cfg p.cmdWord
    let lat := Config.freeLatency s.cfg i s.buf s.wlen s.rpos s.draws
    step s = exec i { s with pins := ps, wait := lat } ∧ ∀ t, step s = .next t → t.latency = 1 + lat

/-- R230, R231: at an edge with rst = 0 that accepts nothing the offered word has no effect. With cmd_valid = 0 a ready
port stays ready and nothing changes but the host's schedule; while a command is in progress or pending the step does
not depend on cmd_valid and cmd_word, and keeps the stream, the cursor, the Decoder and the held response, unless that
response is taken. -/
def Obligations.UnacceptedWordsHaveNoEffect : Prop :=
  ∀ s : State, s.pinsNow.rst = false → s.port ≠ .unreset →
    s.cmdReady false = decide (s.port = .ready) ∧
    (s.port = .ready → s.pinsNow.cmdValid = false → step s = .next { s with pins := s.pins.tail }) ∧
    (s.port ≠ .ready →
      (∀ (p : Pins) (ps : List Pins) (valid : Bool) (word : Nat), s.pins = p :: ps →
        step { s with pins := { p with cmdValid := valid, cmdWord := word } :: ps } = step s) ∧
      ∃ t, step s = .next t ∧
        t.cfg = s.cfg ∧ t.buf = s.buf ∧ t.wlen = s.wlen ∧ t.rpos = s.rpos ∧ t.decoder = s.decoder ∧
        (t.response = s.response ∨
          s.rspValid false = true ∧ s.pinsNow.rspReady = true ∧ t.port = .ready ∧ t.response = none))

/-- R232: a pending response is valid, stays as it is while rsp_ready = 0, and is taken at an edge with rsp_ready = 1,
after which rsp_valid = 0 and cmd_ready = 1. -/
def Obligations.ResponseIsHeldUntilTaken : Prop :=
  ∀ (s : State) (r : Response), s.port = .pending r → s.pinsNow.rst = false →
    s.rspValid false = true ∧ s.rspWord false = some (responseWord s.cfg r) ∧ s.cmdReady false = false ∧
    (s.pinsNow.rspReady = false → ∃ t, step s = .next t ∧ t.port = .pending r ∧ t.rspWord false = s.rspWord false) ∧
    (s.pinsNow.rspReady = true → ∃ t, step s = .next t ∧ t.rspValid false = false ∧ t.cmdReady false = true)

/-- R232, R234, R10: whatever LAT is, a command in progress shows no response before LAT edges without a reset have
passed, and its response is valid after exactly LAT; the state it computed stands throughout. -/
def Obligations.ResponseBecomesValidAfterLat : Prop :=
  ∀ (s : State) (r : Response), s.port = .busy r 0 → (∀ p ∈ s.pins, p.rst = false) →
    1 ≤ s.latency ∧
    (∀ k < s.latency, ∃ t, Sys2Proof.core.run k s = .next t ∧ t.rspValid false = false ∧ t.cmdReady false = false) ∧
    ∃ t, Sys2Proof.core.run s.latency s = .next t ∧ t.port = .pending r ∧ t.rspValid false = true ∧
      t.buf = s.buf ∧ t.wlen = s.wlen ∧ t.rpos = s.rpos
end

