-- ==== Sys2Proof/Laws/Codeword.lean ====
section
/-! SUPPORT. Integers as bit sequences (00_scope.md R13) and the arithmetic of the codeword (40_codeword.md). -/

namespace Sys2Proof.Machine

/-! ## bits_k and val -/

@[simp] theorem length_bitsOf (k v : Nat) : (bitsOf k v).length = k := by
  induction k with
  | zero => rfl
  | succ k ih => simp [bitsOf, ih]

/-- Position i of bits_k(v) holds v[k-1-i]. -/
theorem getElem?_bitsOf (k v i : Nat) :
    (bitsOf k v)[i]? = if i < k then some (v.testBit (k - 1 - i)) else none := by
  induction k generalizing i with
  | zero => simp [bitsOf]
  | succ k ih =>
    cases i with
    | zero => simp [bitsOf]
    | succ i => simp [bitsOf, ih, show k - (i + 1) = k - 1 - i by omega]

theorem shiftIn_eq (r : Nat) (b : Bool) : shiftIn r b = 2 * r + b.toNat := by
  unfold shiftIn
  rw [Nat.shiftLeft_eq, pow_one, Nat.mul_comm r 2]
  cases b with
  | false => simp
  | true => simpa using (Nat.two_pow_add_eq_or_of_lt (i := 1) (b := 1) (by decide) r).symm

@[simp] theorem valOf_nil : valOf [] = 0 := rfl

theorem foldl_shiftIn (s : Bits) (r : Nat) : s.foldl shiftIn r = r * 2 ^ s.length + valOf s := by
  induction s generalizing r with
  | nil => simp
  | cons b s ih =>
    simp only [List.foldl_cons, valOf, List.length_cons]
    rw [ih, ih, shiftIn_eq, shiftIn_eq]
    ring

theorem valOf_cons (b : Bool) (s : Bits) : valOf (b :: s) = b.toNat * 2 ^ s.length + valOf s := by
  rw [valOf, List.foldl_cons, foldl_shiftIn, shiftIn_eq]
  simp

theorem valOf_append (s t : Bits) : valOf (s ++ t) = valOf s * 2 ^ t.length + valOf t := by
  rw [valOf, List.foldl_append, foldl_shiftIn]
  rfl

theorem valOf_lt (s : Bits) : valOf s < 2 ^ s.length := by
  induction s with
  | nil => simp
  | cons b s ih =>
    rw [valOf_cons, List.length_cons, pow_succ]
    cases b <;> simp <;> omega

@[simp] theorem valOf_replicate_false (k : Nat) : valOf (List.replicate k false) = 0 := by
  induction k with
  | zero => rfl
  | succ k ih => simp [List.replicate_succ, valOf_cons, ih]

/-- val(bits_k(v)) is the low k bits of v. -/
theorem valOf_bitsOf (k v : Nat) : valOf (bitsOf k v) = v % 2 ^ k := by
  induction k with
  | zero => simp [bitsOf, Nat.mod_one]
  | succ k ih =>
    rw [bitsOf, valOf_cons, ih, length_bitsOf, Nat.mod_pow_succ, Nat.testBit_eq_decide_div_mod_eq]
    rcases Nat.mod_two_eq_zero_or_one (v / 2 ^ k) with h | h
    · simp [h]
    · simp [h]; ring

theorem bitsOf_add (j k v : Nat) : bitsOf (j + k) v = bitsOf j (v >>> k) ++ bitsOf k v := by
  induction j with
  | zero => simp [bitsOf]
  | succ j ih =>
    rw [show j + 1 + k = (j + k) + 1 by omega]
    simp only [bitsOf, ih, Nat.testBit_shiftRight, List.cons_append, Nat.add_comm k j]

theorem bitsOf_congr {k v w : Nat} (h : ∀ i < k, v.testBit i = w.testBit i) : bitsOf k v = bitsOf k w := by
  induction k with
  | zero => rfl
  | succ k ih => simp [bitsOf, h k (by omega), ih fun i hi => h i (by omega)]

@[simp] theorem bitsOf_zero_value (k : Nat) : bitsOf k 0 = List.replicate k false := by
  induction k with
  | zero => rfl
  | succ k ih => simp [bitsOf, ih, List.replicate_succ]

/-! ## exponent and length -/

theorem two_pow_exponent_le {n : Nat} (h : n ≠ 0) : 2 ^ exponent n ≤ n := Nat.log2_self_le h

theorem lt_two_pow_exponent (n : Nat) : n < 2 ^ (exponent n + 1) := Nat.lt_log2_self

theorem exponent_lt {n w : Nat} (hn : n ≠ 0) (h : n < 2 ^ w) : exponent n < w :=
  (Nat.pow_lt_pow_iff_right (by decide)).mp (lt_of_le_of_lt (two_pow_exponent_le hn) h)

theorem remainder_lt {n : Nat} : remainder n < 2 ^ exponent n := by
  have := lt_two_pow_exponent n
  rw [pow_succ] at this
  have := Nat.two_pow_pos (exponent n)
  unfold remainder
  omega

@[simp] theorem length_codeword (n : Nat) : (codeword n).length = codeLength n := by
  simp [codeword, codeLength]; omega

/-! ## Leading zeros -/

@[simp] theorem leadingZeros_replicate (z : Nat) : leadingZeros (List.replicate z false) = z := by
  induction z with
  | zero => rfl
  | succ z ih => simp [List.replicate_succ, leadingZeros, ih]

theorem leadingZeros_le (s : Bits) : leadingZeros s ≤ s.length := by
  induction s with
  | nil => rfl
  | cons b s ih => cases b <;> simp [leadingZeros, ih]

theorem leadingZeros_replicate_append (z : Nat) (s : Bits) :
    leadingZeros (List.replicate z false ++ s) = z + leadingZeros s := by
  induction z with
  | zero => simp
  | succ z ih => simp [List.replicate_succ, leadingZeros, ih]; omega

/-- Every sequence is its leading zeros, and then nothing or a 1 and the rest. -/
theorem leadingZeros_split (s : Bits) :
    s = List.replicate (leadingZeros s) false ∨
      ∃ t, s = List.replicate (leadingZeros s) false ++ true :: t := by
  induction s with
  | nil => exact .inl rfl
  | cons b s ih =>
    cases b with
    | true => exact .inr ⟨s, by simp [leadingZeros]⟩
    | false =>
      rcases ih with h | ⟨t, h⟩
      · left
        conv_lhs => rw [h]
        simp [leadingZeros, List.replicate_succ]
      · right
        refine ⟨t, ?_⟩
        conv_lhs => rw [h]
        simp [leadingZeros, List.replicate_succ]

end Sys2Proof.Machine
end

