-- ==== Sys2Proof/Laws/Decode.lean ====
section
/-! SUPPORT. The fields of a command (30_encoding.md R62). -/

namespace Sys2Proof

theorem opcode_lt (i : Instr) : opcode i < 16 := by
  cases i <;> simp [opcode]

theorem fromOpcode_arg (op : Fin 16) (a c : Nat) : (fromOpcode op a c).arg = a := by
  fin_cases op <;> rfl

theorem fromOpcode_cnt (op : Fin 16) (a c : Nat) : (fromOpcode op a c).cnt = c := by
  fin_cases op <;> rfl

theorem opcode_fromOpcode (op : Fin 16) (a c : Nat) : opcode (fromOpcode op a c) = op.val := by
  fin_cases op <;> rfl

theorem bitField_lt (v lo w : Nat) : bitField v lo w < 2 ^ w := Nat.mod_lt _ (Nat.two_pow_pos _)

/-- A word put together from a high and a low part, with the low part inside its width, as a sum. -/
theorem shiftLeft_or_eq (hi lo w : Nat) (h : lo < 2 ^ w) : (hi <<< w) ||| lo = hi * 2 ^ w + lo := by
  rw [Nat.shiftLeft_eq, Nat.mul_comm, Nat.two_pow_add_eq_or_of_lt h]

/-- The word as a sum of its fields. -/
theorem encode_eq_sum (cfg : Config) (i : Instr) (h : i.arg < 2 ^ cfg.nw) :
    encode cfg i = i.cnt * 2 ^ (cfg.nw + 4) + (i.arg * 16 + opcode i) := by
  have ho := opcode_lt i
  have h1 : (i.arg <<< 4) ||| opcode i = i.arg * 16 + opcode i := shiftLeft_or_eq _ _ 4 ho
  have h2 : i.arg * 16 + opcode i < 2 ^ (cfg.nw + 4) := by
    rw [pow_add]
    omega
  rw [encode, Nat.or_assoc, h1, shiftLeft_or_eq _ _ _ h2]

end Sys2Proof
end

