-- ==== Sys2Proof/Laws/Memory.lean ====
section
/-! SUPPORT. The bit buffer: reads after writes, what a write leaves alone, and the canonical form. -/

namespace Sys2Proof.Machine

/-! ## Cells -/

theorem Memory.cell_setCell_ne (m : Memory) (k k' : Nat) (b : Byte) (h : k' ≠ k) :
    (m.setCell k b).cell k' = m.cell k' := by
  induction m with
  | nil => simp only [setCell]; split <;> simp [cell, h]
  | cons c m ih =>
    obtain ⟨a, x⟩ := c
    simp only [setCell]
    split
    · split <;> simp [cell, h]
    · split
      · rename_i _ hk
        subst hk
        split <;> simp [cell, h]
      · simp [cell, ih]

theorem Memory.wfFrom_mono {lo lo' : Nat} {m : Memory} (h : Memory.wfFrom lo m = true) (hl : lo' ≤ lo) :
    Memory.wfFrom lo' m = true := by
  cases m with
  | nil => rfl
  | cons c m => obtain ⟨a, b⟩ := c; simp [wfFrom] at h ⊢; exact ⟨⟨by omega, h.1.2⟩, h.2⟩

theorem Memory.cell_below {lo k : Nat} {m : Memory} (h : Memory.wfFrom lo m = true) (hk : k < lo) :
    m.cell k = Memory.unlisted := by
  induction m generalizing lo with
  | nil => rfl
  | cons c m ih =>
    obtain ⟨a, b⟩ := c
    simp [wfFrom] at h
    simp only [cell, if_neg (show k ≠ a by omega)]
    exact ih h.2 (by omega)

theorem Memory.cell_setCell_same {lo : Nat} (m : Memory) (k : Nat) (b : Byte) (h : Memory.wfFrom lo m = true) :
    (m.setCell k b).cell k = b := by
  induction m generalizing lo with
  | nil => simp only [setCell]; split <;> simp_all [cell]
  | cons c m ih =>
    obtain ⟨a, x⟩ := c
    have hw := h
    simp [wfFrom] at h
    simp only [setCell]
    split
    · split
      · rename_i hb
        rw [hb]
        exact Memory.cell_below (lo := a) (by simp [wfFrom]; exact h.imp (fun h => h.2) id) ‹_›
      · simp [cell]
    · split
      · rename_i _ hk
        subst hk
        split
        · rename_i hb
          rw [hb]
          exact Memory.cell_below h.2 (by omega)
        · simp [cell]
      · rename_i _ hk
        simp only [cell, if_neg hk]
        exact ih h.2

theorem Memory.wfFrom_setCell {lo : Nat} (m : Memory) (k : Nat) (b : Byte) (h : Memory.wfFrom lo m = true)
    (hk : lo ≤ k) : Memory.wfFrom lo (m.setCell k b) = true := by
  induction m generalizing lo with
  | nil => simp only [setCell]; split <;> simp_all [wfFrom]
  | cons c m ih =>
    obtain ⟨a, x⟩ := c
    have hw := h
    simp [wfFrom] at h
    simp only [setCell]
    split
    · split
      · exact hw
      · simp [wfFrom, *]
    · split
      · rename_i _ hk
        subst hk
        split
        · exact Memory.wfFrom_mono h.2 (by omega)
        · simp [wfFrom, *]
      · simp only [wfFrom, Bool.and_eq_true, decide_eq_true_eq, bne_iff_ne, ne_eq]
        exact ⟨⟨h.1.1, h.1.2⟩, ih h.2 (by omega)⟩

/-! ## Bits -/

theorem setByteBit_getLsbD (b : Byte) (i j : Nat) (v : Bool) (hi : i < 8) (hj : j < 8) :
    (setByteBit b i v).getLsbD j = if j = i then v else b.getLsbD j := by
  unfold setByteBit
  by_cases h : j = i
  · subst h; cases v <;> simp [hj]
  · have hne : j < i ∨ ¬j - i = 0 := by omega
    cases v <;> simp [hj, h] <;> intros <;> omega

theorem Memory.bit_setBit (m : Memory) (p q : Nat) (v : Bool) (h : m.wf = true) :
    (m.setBit p v).bit q = if q = p then v else m.bit q := by
  unfold bit setBit
  by_cases hk : q / 8 = p / 8
  · rw [hk, Memory.cell_setCell_same _ _ _ h, setByteBit_getLsbD _ _ _ _ (by omega) (by omega)]
    exact if_congr (by omega) rfl rfl
  · rw [Memory.cell_setCell_ne _ _ _ _ hk, if_neg (fun hq => hk (by rw [hq]))]

theorem Memory.wf_setBit (m : Memory) (p : Nat) (v : Bool) (h : m.wf = true) : (m.setBit p v).wf = true :=
  Memory.wfFrom_setCell _ _ _ h (Nat.zero_le _)

theorem Memory.wf_setBits (m : Memory) (p : Nat) (s : Bits) (h : m.wf = true) : (m.setBits p s).wf = true := by
  induction s generalizing m p with
  | nil => exact h
  | cons b s ih => exact ih _ _ (Memory.wf_setBit m p b h)

/-- What a run of writes does to every position. -/
theorem Memory.bit_setBits (m : Memory) (p : Nat) (s : Bits) (q : Nat) (h : m.wf = true) :
    (m.setBits p s).bit q = if p ≤ q ∧ q < p + s.length then s.getD (q - p) false else m.bit q := by
  induction s generalizing m p with
  | nil => simp only [setBits, List.length_nil]; rw [if_neg (by omega)]
  | cons b s ih =>
    simp only [setBits, List.length_cons]
    rw [ih _ _ (Memory.wf_setBit m p b h), Memory.bit_setBit _ _ _ _ h]
    by_cases hq : q = p
    · subst hq
      rw [if_neg (by omega), if_pos rfl, if_pos (by omega)]
      simp
    · by_cases hr : p + 1 ≤ q ∧ q < p + 1 + s.length
      · rw [if_pos hr, if_pos (by omega), show q - p = (q - (p + 1)) + 1 by omega]
        simp
      · rw [if_neg hr, if_neg hq, if_neg (by omega)]

/-! ## Runs of positions -/

@[simp] theorem Memory.length_bits (m : Memory) (p k : Nat) : (m.bits p k).length = k := by
  induction k generalizing p with
  | zero => rfl
  | succ k ih => simp [bits, ih]

theorem Memory.bits_add (m : Memory) (p j k : Nat) : m.bits p (j + k) = m.bits p j ++ m.bits (p + j) k := by
  induction j generalizing p with
  | zero => simp [bits]
  | succ j ih =>
    rw [show j + 1 + k = (j + k) + 1 by omega]
    simp only [bits, List.cons_append, ih, show p + 1 + j = p + (j + 1) by omega]

theorem Memory.bits_congr {m m' : Memory} {p p' k : Nat} (h : ∀ i < k, m.bit (p + i) = m'.bit (p' + i)) :
    m.bits p k = m'.bits p' k := by
  induction k generalizing p p' with
  | zero => rfl
  | succ k ih =>
    simp only [bits]
    rw [show m.bit p = m'.bit p' from h 0 (by omega)]
    congr 1
    refine ih fun i hi => ?_
    have := h (i + 1) (by omega)
    rwa [← Nat.add_assoc, ← Nat.add_assoc, Nat.add_right_comm, Nat.add_right_comm p'] at this

theorem Memory.getElem?_bits (m : Memory) (p k i : Nat) :
    (m.bits p k)[i]? = if i < k then some (m.bit (p + i)) else none := by
  induction k generalizing p i with
  | zero => simp [bits]
  | succ k ih =>
    cases i with
    | zero => simp [bits]
    | succ i => simp [bits, ih, Nat.add_right_comm, Nat.add_assoc]

theorem Memory.bits_setBits_before (m : Memory) (p k q : Nat) (s : Bits) (h : m.wf = true) (hk : p + k ≤ q) :
    (m.setBits q s).bits p k = m.bits p k :=
  Memory.bits_congr fun i hi => by rw [Memory.bit_setBits _ _ _ _ h, if_neg (by omega)]

/-- A run read back where it was written. -/
theorem Memory.bits_setBits_same (m : Memory) (p : Nat) (s : Bits) (h : m.wf = true) :
    (m.setBits p s).bits p s.length = s := by
  apply List.ext_getElem?
  intro i
  rw [Memory.getElem?_bits]
  split
  · rename_i hi
    rw [Memory.bit_setBits _ _ _ _ h, if_pos (by omega)]
    simp [hi]
  · rename_i hi
    simp [Nat.le_of_not_lt hi]

/-! ## Nothing past CAP -/

theorem Memory.within_iff (cap : Nat) (m : Memory) :
    m.within cap = true ↔ ∀ c ∈ m, ∀ j < 8, c.2.getLsbD (7 - j) = true → 8 * c.1 + j < cap := by
  simp only [within, List.all_eq_true, List.mem_range, Bool.or_eq_true, decide_eq_true_eq, Bool.not_eq_true']
  refine forall₂_congr fun c _ => forall₂_congr fun j _ => ?_
  cases c.2.getLsbD (7 - j) <;> simp

theorem Memory.mem_setCell {m : Memory} {k : Nat} {b : Byte} {c : Host.Cell} (h : c ∈ m.setCell k b) :
    c ∈ m ∨ c = (k, b) := by
  induction m with
  | nil => simp only [setCell] at h; split at h <;> simp_all
  | cons x m ih =>
    obtain ⟨a, y⟩ := x
    simp only [setCell] at h
    split at h
    · split at h <;> simp at h ⊢ <;> tauto
    · split at h
      · split at h <;> simp at h ⊢ <;> tauto
      · simp at h ⊢
        rcases h with h | h
        · tauto
        · have := ih h; tauto

theorem Memory.cell_mem {m : Memory} {k : Nat} (h : m.cell k ≠ Memory.unlisted) : (k, m.cell k) ∈ m := by
  induction m with
  | nil => exact absurd rfl h
  | cons c m ih =>
    obtain ⟨a, b⟩ := c
    simp only [cell] at h ⊢
    split
    · rename_i hk; simp [hk]
    · rename_i hk; rw [if_neg hk] at h; exact List.mem_cons_of_mem _ (ih h)

/-- A buffer with nothing past CAP reads 0 there. -/
theorem Memory.bit_of_within {cap : Nat} {m : Memory} (h : m.within cap = true) {p : Nat} (hp : cap ≤ p) :
    m.bit p = false := by
  rw [Memory.within_iff] at h
  by_contra hb
  simp only [Bool.not_eq_false] at hb
  have hne : m.cell (p / 8) ≠ Memory.unlisted := by
    intro hu
    simp [bit, hu, unlisted] at hb
  have := h _ (Memory.cell_mem hne) (p % 8) (by omega) hb
  simp only at this
  omega

theorem Memory.within_setBit {cap : Nat} {m : Memory} (h : m.within cap = true) (p : Nat) (v : Bool) (hp : p < cap) :
    (m.setBit p v).within cap = true := by
  rw [Memory.within_iff]
  intro c hc j hj hb
  rcases Memory.mem_setCell hc with hm | rfl
  · exact (Memory.within_iff _ _).mp h c hm j hj hb
  · simp only at hb ⊢
    rw [setByteBit_getLsbD _ _ _ _ (by omega) (by omega)] at hb
    split at hb
    · omega
    · by_contra hlt
      have h0 := Memory.bit_of_within h (p := 8 * (p / 8) + j) (by omega)
      rw [bit, show (8 * (p / 8) + j) / 8 = p / 8 by omega, show (8 * (p / 8) + j) % 8 = j by omega] at h0
      simp [h0] at hb

theorem Memory.within_setBits {cap : Nat} (m : Memory) (p : Nat) (s : Bits) (h : m.within cap = true)
    (hp : p + s.length ≤ cap) : (m.setBits p s).within cap = true := by
  induction s generalizing m p with
  | nil => exact h
  | cons b s ih =>
    simp only [List.length_cons] at hp
    exact ih _ _ (Memory.within_setBit h p b (by omega)) (by omega)

/-- The empty buffer of the reset state has the canonical form. -/
theorem Memory.wf_reset : State.reset.buf.wf = true := rfl

end Sys2Proof.Machine
end

