-- ==== Sys2Proof/Laws/State.lean ====
section
/-! SUPPORT. One lemma per field per update of State, so that no proof unfolds a record update. -/

namespace Sys2Proof.Machine

/-! ## `State.answered` -/

@[simp] theorem State.answered_cfg (s : State) (r : Response) : (s.answered r).cfg = s.cfg := rfl
@[simp] theorem State.answered_buf (s : State) (r : Response) : (s.answered r).buf = s.buf := rfl
@[simp] theorem State.answered_wlen (s : State) (r : Response) : (s.answered r).wlen = s.wlen := rfl
@[simp] theorem State.answered_rpos (s : State) (r : Response) : (s.answered r).rpos = s.rpos := rfl
@[simp] theorem State.answered_decoder (s : State) (r : Response) : (s.answered r).decoder = s.decoder := rfl
@[simp] theorem State.answered_port (s : State) (r : Response) : (s.answered r).port = .busy r 0 := rfl
@[simp] theorem State.answered_pins (s : State) (r : Response) : (s.answered r).pins = s.pins := rfl
@[simp] theorem State.answered_wait (s : State) (r : Response) : (s.answered r).wait = s.wait := rfl
@[simp] theorem State.answered_draws (s : State) (r : Response) : (s.answered r).draws = s.draws + 1 := rfl

/-! ## `State.extended` -/

@[simp] theorem State.extended_cfg (s : State) (bits : Bits) : (s.extended bits).cfg = s.cfg := rfl
@[simp] theorem State.extended_buf (s : State) (bits : Bits) : (s.extended bits).buf = s.buf.setBits s.wlen bits := rfl
@[simp] theorem State.extended_wlen (s : State) (bits : Bits) : (s.extended bits).wlen = s.wlen + bits.length := rfl
@[simp] theorem State.extended_rpos (s : State) (bits : Bits) : (s.extended bits).rpos = s.rpos := rfl
@[simp] theorem State.extended_decoder (s : State) (bits : Bits) : (s.extended bits).decoder = s.decoder := rfl
@[simp] theorem State.extended_port (s : State) (bits : Bits) : (s.extended bits).port = s.port := rfl
@[simp] theorem State.extended_pins (s : State) (bits : Bits) : (s.extended bits).pins = s.pins := rfl
@[simp] theorem State.extended_wait (s : State) (bits : Bits) : (s.extended bits).wait = s.wait := rfl
@[simp] theorem State.extended_draws (s : State) (bits : Bits) : (s.extended bits).draws = s.draws := rfl

/-! ## `State.movedTo` -/

@[simp] theorem State.movedTo_cfg (s : State) (p : Nat) : (s.movedTo p).cfg = s.cfg := rfl
@[simp] theorem State.movedTo_buf (s : State) (p : Nat) : (s.movedTo p).buf = s.buf := rfl
@[simp] theorem State.movedTo_wlen (s : State) (p : Nat) : (s.movedTo p).wlen = s.wlen := rfl
@[simp] theorem State.movedTo_rpos (s : State) (p : Nat) : (s.movedTo p).rpos = p := rfl
@[simp] theorem State.movedTo_decoder (s : State) (p : Nat) : (s.movedTo p).decoder = s.decoder := rfl
@[simp] theorem State.movedTo_port (s : State) (p : Nat) : (s.movedTo p).port = s.port := rfl
@[simp] theorem State.movedTo_pins (s : State) (p : Nat) : (s.movedTo p).pins = s.pins := rfl
@[simp] theorem State.movedTo_wait (s : State) (p : Nat) : (s.movedTo p).wait = s.wait := rfl
@[simp] theorem State.movedTo_draws (s : State) (p : Nat) : (s.movedTo p).draws = s.draws := rfl

/-! ## `State.cleared` -/

@[simp] theorem State.cleared_cfg (s : State) : s.cleared.cfg = s.cfg := rfl
@[simp] theorem State.cleared_buf (s : State) : s.cleared.buf = s.buf := rfl
@[simp] theorem State.cleared_wlen (s : State) : s.cleared.wlen = 0 := rfl
@[simp] theorem State.cleared_rpos (s : State) : s.cleared.rpos = 0 := rfl
@[simp] theorem State.cleared_decoder (s : State) : s.cleared.decoder = s.decoder := rfl
@[simp] theorem State.cleared_port (s : State) : s.cleared.port = s.port := rfl
@[simp] theorem State.cleared_pins (s : State) : s.cleared.pins = s.pins := rfl
@[simp] theorem State.cleared_wait (s : State) : s.cleared.wait = s.wait := rfl
@[simp] theorem State.cleared_draws (s : State) : s.cleared.draws = s.draws := rfl

/-! ## `State.decoderReleased` -/

@[simp] theorem State.decoderReleased_cfg (s : State) : s.decoderReleased.cfg = s.cfg := rfl
@[simp] theorem State.decoderReleased_buf (s : State) : s.decoderReleased.buf = s.buf := rfl
@[simp] theorem State.decoderReleased_wlen (s : State) : s.decoderReleased.wlen = s.wlen := rfl
@[simp] theorem State.decoderReleased_rpos (s : State) : s.decoderReleased.rpos = s.rpos := rfl
@[simp] theorem State.decoderReleased_port (s : State) : s.decoderReleased.port = s.port := rfl
@[simp] theorem State.decoderReleased_pins (s : State) : s.decoderReleased.pins = s.pins := rfl
@[simp] theorem State.decoderReleased_wait (s : State) : s.decoderReleased.wait = s.wait := rfl
@[simp] theorem State.decoderReleased_draws (s : State) : s.decoderReleased.draws = s.draws := rfl

/-! ## `State.sampled` -/

@[simp] theorem State.sampled_cfg (s : State) : s.sampled.cfg = s.cfg := rfl
@[simp] theorem State.sampled_buf (s : State) : s.sampled.buf = s.buf := rfl
@[simp] theorem State.sampled_wlen (s : State) : s.sampled.wlen = s.wlen := rfl
@[simp] theorem State.sampled_rpos (s : State) : s.sampled.rpos = s.rpos := rfl
@[simp] theorem State.sampled_decoder (s : State) : s.sampled.decoder = s.decoder := rfl
@[simp] theorem State.sampled_port (s : State) : s.sampled.port = s.port := rfl
@[simp] theorem State.sampled_pins (s : State) : s.sampled.pins = s.pins.tail := rfl
@[simp] theorem State.sampled_wait (s : State) : s.sampled.wait = s.wait := rfl
@[simp] theorem State.sampled_draws (s : State) : s.sampled.draws = s.draws := rfl

/-! ## `State.timedFor` -/

@[simp] theorem State.timedFor_cfg (s : State) (i : Instr) : (s.timedFor i).cfg = s.cfg := rfl
@[simp] theorem State.timedFor_buf (s : State) (i : Instr) : (s.timedFor i).buf = s.buf := rfl
@[simp] theorem State.timedFor_wlen (s : State) (i : Instr) : (s.timedFor i).wlen = s.wlen := rfl
@[simp] theorem State.timedFor_rpos (s : State) (i : Instr) : (s.timedFor i).rpos = s.rpos := rfl
@[simp] theorem State.timedFor_decoder (s : State) (i : Instr) : (s.timedFor i).decoder = s.decoder := rfl
@[simp] theorem State.timedFor_port (s : State) (i : Instr) : (s.timedFor i).port = s.port := rfl
@[simp] theorem State.timedFor_pins (s : State) (i : Instr) : (s.timedFor i).pins = s.pins := rfl
@[simp] theorem State.timedFor_draws (s : State) (i : Instr) : (s.timedFor i).draws = s.draws := rfl
@[simp] theorem State.timedFor_wait (s : State) (i : Instr) :
    (s.timedFor i).wait = Config.freeLatency s.cfg i s.buf s.wlen s.rpos s.draws := rfl

/-! ## `State.withPort` -/

@[simp] theorem State.withPort_cfg (s : State) (p : Port) : (s.withPort p).cfg = s.cfg := rfl
@[simp] theorem State.withPort_buf (s : State) (p : Port) : (s.withPort p).buf = s.buf := rfl
@[simp] theorem State.withPort_wlen (s : State) (p : Port) : (s.withPort p).wlen = s.wlen := rfl
@[simp] theorem State.withPort_rpos (s : State) (p : Port) : (s.withPort p).rpos = s.rpos := rfl
@[simp] theorem State.withPort_decoder (s : State) (p : Port) : (s.withPort p).decoder = s.decoder := rfl
@[simp] theorem State.withPort_port (s : State) (p : Port) : (s.withPort p).port = p := rfl
@[simp] theorem State.withPort_pins (s : State) (p : Port) : (s.withPort p).pins = s.pins := rfl
@[simp] theorem State.withPort_wait (s : State) (p : Port) : (s.withPort p).wait = s.wait := rfl
@[simp] theorem State.withPort_draws (s : State) (p : Port) : (s.withPort p).draws = s.draws := rfl

/-! ## `State.resetEdge` -/

@[simp] theorem State.resetEdge_cfg (s : State) : s.resetEdge.cfg = s.cfg := rfl
@[simp] theorem State.resetEdge_buf (s : State) : s.resetEdge.buf = [] := rfl
@[simp] theorem State.resetEdge_wlen (s : State) : s.resetEdge.wlen = 0 := rfl
@[simp] theorem State.resetEdge_rpos (s : State) : s.resetEdge.rpos = 0 := rfl
@[simp] theorem State.resetEdge_decoder (s : State) : s.resetEdge.decoder = { phase := .unary, p := 0, e := 0, r := 0, k := 0 } := rfl
@[simp] theorem State.resetEdge_port (s : State) : s.resetEdge.port = .ready := rfl
@[simp] theorem State.resetEdge_pins (s : State) : s.resetEdge.pins = s.pins := rfl
@[simp] theorem State.resetEdge_wait (s : State) : s.resetEdge.wait = 0 := rfl
@[simp] theorem State.resetEdge_draws (s : State) : s.resetEdge.draws = s.draws := rfl

/-! ## `State.offering` -/

@[simp] theorem State.offering_cfg (s : State) (w : Nat) : (s.offering w).cfg = s.cfg := rfl
@[simp] theorem State.offering_buf (s : State) (w : Nat) : (s.offering w).buf = s.buf := rfl
@[simp] theorem State.offering_wlen (s : State) (w : Nat) : (s.offering w).wlen = s.wlen := rfl
@[simp] theorem State.offering_rpos (s : State) (w : Nat) : (s.offering w).rpos = s.rpos := rfl
@[simp] theorem State.offering_decoder (s : State) (w : Nat) : (s.offering w).decoder = s.decoder := rfl
@[simp] theorem State.offering_port (s : State) (w : Nat) : (s.offering w).port = .ready := rfl
@[simp] theorem State.offering_pins (s : State) (w : Nat) : (s.offering w).pins = { rst := false, cmdValid := true, cmdWord := w, rspReady := false } :: s.pins := rfl
@[simp] theorem State.offering_wait (s : State) (w : Nat) : (s.offering w).wait = s.wait := rfl
@[simp] theorem State.offering_draws (s : State) (w : Nat) : (s.offering w).draws = s.draws := rfl

@[simp] theorem State.resetFor_cfg (cfg : Config) : (State.resetFor cfg).cfg = cfg := rfl
@[simp] theorem State.resetFor_buf (cfg : Config) : (State.resetFor cfg).buf = [] := rfl
@[simp] theorem State.resetFor_wlen (cfg : Config) : (State.resetFor cfg).wlen = 0 := rfl
@[simp] theorem State.resetFor_rpos (cfg : Config) : (State.resetFor cfg).rpos = 0 := rfl
@[simp] theorem State.resetFor_decoder (cfg : Config) : (State.resetFor cfg).decoder = { phase := .unary, p := 0, e := 0, r := 0, k := 0 } := rfl
@[simp] theorem State.resetFor_port (cfg : Config) : (State.resetFor cfg).port = .ready := rfl
@[simp] theorem State.resetFor_pins (cfg : Config) : (State.resetFor cfg).pins = [] := rfl
@[simp] theorem State.resetFor_wait (cfg : Config) : (State.resetFor cfg).wait = 0 := rfl
@[simp] theorem State.resetFor_draws (cfg : Config) : (State.resetFor cfg).draws = 0 := rfl

/-! ## The response held by each update -/

@[simp] theorem State.answered_response (s : State) (r : Response) : (s.answered r).response = some r := rfl
@[simp] theorem State.extended_response (s : State) (bits : Bits) : (s.extended bits).response = s.response := rfl
@[simp] theorem State.movedTo_response (s : State) (p : Nat) : (s.movedTo p).response = s.response := rfl
@[simp] theorem State.cleared_response (s : State) : s.cleared.response = s.response := rfl
@[simp] theorem State.decoderReleased_response (s : State) : s.decoderReleased.response = s.response := rfl
@[simp] theorem State.sampled_response (s : State) : s.sampled.response = s.response := rfl
@[simp] theorem State.timedFor_response (s : State) (i : Instr) : (s.timedFor i).response = s.response := rfl
@[simp] theorem State.resetEdge_response (s : State) : s.resetEdge.response = none := rfl

/-! ## The stream seen through updates that do not write it -/

@[simp] theorem State.answered_stream (s : State) (r : Response) : (s.answered r).stream = s.stream := rfl
@[simp] theorem State.movedTo_stream (s : State) (p : Nat) : (s.movedTo p).stream = s.stream := rfl
@[simp] theorem State.decoderReleased_stream (s : State) : s.decoderReleased.stream = s.stream := rfl
@[simp] theorem State.sampled_stream (s : State) : s.sampled.stream = s.stream := rfl
@[simp] theorem State.timedFor_stream (s : State) (i : Instr) : (s.timedFor i).stream = s.stream := rfl
@[simp] theorem State.withPort_stream (s : State) (p : Port) : (s.withPort p).stream = s.stream := rfl
@[simp] theorem State.cleared_stream (s : State) : s.cleared.stream = [] := rfl
@[simp] theorem State.resetEdge_stream (s : State) : s.resetEdge.stream = [] := rfl
@[simp] theorem State.answered_unread (s : State) (r : Response) : (s.answered r).unread = s.unread := rfl

end Sys2Proof.Machine
end

