-- ==== Sys2Proof/Laws/Ops.lean ====
section
/-! SUPPORT. For each shared operation, once, everything it can do. -/

namespace Sys2Proof.Machine

/-- Append (43_bitstream.md R140): CAPACITY_ERROR, or the bits written at WLEN. -/
theorem State.append_cases (s : State) (bits : Bits) :
    (s.cfg.cap < s.wlen + bits.length ∧
      s.append bits = .error
        { status := .capacityError, value := 0, len := bits.length, aux := s.cfg.cap - s.wlen }) ∨
    (s.wlen + bits.length ≤ s.cfg.cap ∧ s.append bits = .ok (s.extended bits)) := by
  unfold State.append
  split
  · exact .inl ⟨‹_›, rfl⟩
  · exact .inr ⟨by omega, rfl⟩

/-- The appended bits stand at the stream's end, after the bits it had (R140). -/
theorem State.extended_stream (s : State) (bits : Bits) (h : s.buf.wf = true) :
    (s.extended bits).stream = s.stream ++ bits := by
  simp only [State.stream, State.extended_buf, State.extended_wlen]
  rw [Memory.bits_add, Memory.bits_setBits_before _ _ _ _ _ h (by omega), Nat.zero_add,
    Memory.bits_setBits_same _ _ _ h]

/-- They stand at the unread stream's end too. -/
theorem State.extended_unread (s : State) (bits : Bits) (h : s.buf.wf = true) (hc : s.rpos ≤ s.wlen) :
    (s.extended bits).unread = s.unread ++ bits := by
  simp only [State.unread, State.extended_buf, State.extended_wlen, State.extended_rpos]
  rw [show s.wlen + bits.length - s.rpos = (s.wlen - s.rpos) + bits.length by omega, Memory.bits_add,
    Memory.bits_setBits_before _ _ _ _ _ h (by omega), show s.rpos + (s.wlen - s.rpos) = s.wlen by omega,
    Memory.bits_setBits_same _ _ _ h]

/-- Every position outside the appended ones keeps its bit. -/
theorem State.extended_bit_outside (s : State) (bits : Bits) (h : s.buf.wf = true) (p : Nat)
    (hp : p < s.wlen ∨ s.wlen + bits.length ≤ p) : (s.extended bits).buf.bit p = s.buf.bit p := by
  rw [State.extended_buf, Memory.bit_setBits _ _ _ _ h, if_neg (by omega)]

@[simp] theorem State.length_stream (s : State) : s.stream.length = s.wlen := Memory.length_bits _ _ _

@[simp] theorem State.length_unread (s : State) : s.unread.length = s.wlen - s.rpos := Memory.length_bits _ _ _

theorem State.stream_getElem? (s : State) (p : Nat) :
    s.stream[p]? = if p < s.wlen then some (s.buf.bit p) else none := by
  simp [State.stream, Memory.getElem?_bits]

/-- The unread stream is the stream from RPOS on. -/
theorem State.unread_eq_drop (s : State) (h : s.rpos ≤ s.wlen) : s.unread = s.stream.drop s.rpos := by
  have := Memory.bits_add s.buf 0 s.rpos (s.wlen - s.rpos)
  rw [show s.rpos + (s.wlen - s.rpos) = s.wlen by omega, Nat.zero_add] at this
  rw [State.stream, this, List.drop_left' (Memory.length_bits _ _ _)]
  rfl

/-- A read of positions below CAP, or of none, gives them; any other faults (entry 11). -/
theorem State.readBits_cases (s : State) (p k : Nat) :
    ((k = 0 ∨ p + k ≤ s.cfg.cap) ∧ s.readBits p k = .ok (s.buf.bits p k)) ∨
    (0 < k ∧ s.cfg.cap < p + k ∧ s.readBits p k = .error .positionOutsideBuffer) := by
  unfold State.readBits
  split
  · exact .inl ⟨‹_›, rfl⟩
  · exact .inr ⟨by omega, by omega, rfl⟩

/-- A read of positions that all exist gives them. -/
theorem State.readBits_of_le {s : State} {p k : Nat} (h : p + k ≤ s.cfg.cap) :
    s.readBits p k = .ok (s.buf.bits p k) := if_pos (.inr h)

/-- respond and raise always give the next state in which the response is held (00_scope.md R15). -/
theorem State.respond_eq (s : State) (st : Status) (v l a : Nat) :
    s.respond st v l a = .next (s.answered { status := st, value := v, len := l, aux := a }) := rfl

theorem State.raise_eq (s : State) (st : Status) (l a : Nat) :
    s.raise st l a = .next (s.answered { status := st, value := 0, len := l, aux := a }) := rfl

/-- A value NW bits can hold is its own zero extension (00_scope.md R12). -/
theorem zext_of_lt {cfg : Config} {v : Nat} (h : v < 2 ^ cfg.nw) : zext cfg v = v := if_pos h

theorem zext_lt (cfg : Config) (v : Nat) : zext cfg v < 2 ^ cfg.nw := by
  unfold zext
  split
  · assumption
  · exact Nat.mod_lt _ (Nat.two_pow_pos _)

theorem State.atEndBit_le (s : State) : s.atEndBit ≤ 1 := Bool.toNat_le _

/-- Elaboration gives the unreset hardware of a legal configuration and refuses any other (60_exceptions.md R203). -/
theorem elaborate_cases (cfg : Config) :
    (cfg.Legal ∧ elaborate cfg = .ok (State.powerOn cfg)) ∨
    (¬cfg.Legal ∧ elaborate cfg = .error .invalidTableRange) := by
  unfold elaborate
  split
  · exact .inl ⟨‹_›, rfl⟩
  · exact .inr ⟨‹_›, rfl⟩

end Sys2Proof.Machine
end

