-- ==== Sys2Proof/Laws/Step.lean ====
section
/-! SUPPORT. What one rising edge can do (70_reset_and_hazards.md R220, R230 to R232), and what a step is. -/

namespace Sys2Proof.Machine

/-- Every edge is one of these seven. -/
theorem State.edge_cases (s : State) :
    (s.pinsNow.rst = true ∧ s.edge = .quiet s.sampled.resetEdge) ∨
    (s.pinsNow.rst = false ∧
      ((s.port = .unreset ∧ s.edge = .noRule .beforeFirstReset) ∨
       (s.port = .ready ∧ s.pinsNow.cmdValid = true ∧
          s.edge = .accept (decode s.cfg s.pinsNow.cmdWord) (s.sampled.timedFor (decode s.cfg s.pinsNow.cmdWord))) ∨
       (s.port = .ready ∧ s.pinsNow.cmdValid = false ∧ s.edge = .quiet s.sampled) ∨
       (∃ r n, s.port = .busy r n ∧ s.latency ≤ n + 1 ∧ s.edge = .quiet (s.sampled.withPort (.pending r))) ∨
       (∃ r n, s.port = .busy r n ∧ n + 1 < s.latency ∧
          s.edge = .quiet (s.sampled.withPort (.busy r (n + 1)))) ∨
       (∃ r, s.port = .pending r ∧
          ((s.pinsNow.rspReady = true ∧ s.edge = .quiet (s.sampled.withPort .ready)) ∨
           (s.pinsNow.rspReady = false ∧ s.edge = .quiet s.sampled))))) := by
  by_cases hr : s.pinsNow.rst = true
  · exact .inl ⟨hr, by unfold State.edge; simp only [hr, if_true]⟩
  · have hf : s.pinsNow.rst = false := by simpa using hr
    refine .inr ⟨hf, ?_⟩
    unfold State.edge
    simp only [hf, Bool.false_eq_true, if_false]
    cases hp : s.port with
    | unreset => simp
    | ready => cases hc : s.pinsNow.cmdValid <;> simp
    | busy r n =>
      by_cases hl : s.latency ≤ n + 1
      · simp [hl]
      · simp [hl, Nat.lt_of_not_le hl]
    | pending r => cases hc : s.pinsNow.rspReady <;> simp

theorem step_of_accept {s t : State} {i : Instr} (h : s.edge = .accept i t) : step s = exec i t := by
  unfold step
  rw [h]

theorem step_of_quiet {s t : State} (h : s.edge = .quiet t) : step s = .next t := by
  unfold step
  rw [h]

theorem step_of_noRule {s : State} {r : Refusal} (h : s.edge = .noRule r) : step s = .refused r := by
  unfold step
  rw [h]

/-- A command offered to a ready EGC is accepted at the coming edge (R230). -/
theorem State.offering_edge (s : State) (w : Nat) :
    (s.offering w).edge = .accept (decode s.cfg w) ((s.withPort .ready).timedFor (decode s.cfg w)) := rfl

theorem State.latency_pos (s : State) : 1 ≤ s.latency := Nat.le_add_right _ _

/-- A run of k + 1 steps whose first step goes on is the run of k from there, for any machine. -/
theorem run_next (M : Host.Core) (k : Nat) {s t : M.State} (h : M.step s = .next t) :
    M.run (k + 1) s = M.run k t := by
  simp only [Host.Core.run, h]

/-- The same for the EGC, one outcome of the first step at a time. -/
theorem core_run_next (k : Nat) {s t : State} (h : step s = .next t) :
    Sys2Proof.core.run (k + 1) s = Sys2Proof.core.run k t :=
  run_next Sys2Proof.core k h

end Sys2Proof.Machine
end

