-- ==== Sys2Proof/Laws/Exec.lean ====
section
/-! SUPPORT. Everything a command can do, once: the inversion of `exec`. -/

namespace Sys2Proof.Machine

/-- A run of the R121 machine that ends in DONE has consumed at least the terminator. -/
theorem runBinary_done_pos {rpos : Nat} {d : Decoder} {s : Bits} {n m : Nat}
    (h : runBinary rpos d s = .done n m) : 1 ≤ m := by
  induction s generalizing d with
  | nil =>
    unfold runBinary at h
    split at h
    · cases h; omega
    · cases h
  | cons b s ih =>
    unfold runBinary at h
    split at h
    · cases h; omega
    · exact ih h

theorem runUnary_done_pos {nw rpos : Nat} {d : Decoder} {s : Bits} {n m : Nat}
    (h : runUnary nw rpos d s = .done n m) : 1 ≤ m := by
  induction s generalizing d with
  | nil => cases h
  | cons b s ih =>
    unfold runUnary at h
    split at h
    · exact runBinary_done_pos h
    · split at h
      · cases h
      · exact ih h

/-- What a command leaves behind: the state `w`, in which the response `r` is then held. One constructor per
kind of write of 10_state.md R32. -/
inductive Leaves (s : State) (i : Instr) : Response → State → Prop where
  /-- Nothing is written: a read-only command, or an error of any command but DECODE. -/
  | nothing (r : Response) (h : r.status ≠ .ok → r.value = 0) : Leaves s i r s
  /-- An append that fits. -/
  | appended (r : Response) (bits : Bits) (h : r.status = .ok) (fits : s.wlen + bits.length ≤ s.cfg.cap)
      (hi : i = .encodeAppend i.arg i.cnt ∨ i = .appendBit i.arg i.cnt ∨ i = .appendBits i.arg i.cnt ∨
        i = .tableAppend i.arg i.cnt) : Leaves s i r (s.extended bits)
  /-- READ_BIT of a bit. -/
  | read (r : Response) (h : r.status = .ok) (hi : i = .readBit i.arg i.cnt) (hne : s.rpos ≠ s.wlen) :
      Leaves s i r (s.movedTo (s.rpos + 1))
  /-- STREAM_SEEK to a position of the stream or its end. -/
  | sought (r : Response) (p : Nat) (h : r.status = .ok) (hi : i = .streamSeek i.arg i.cnt) (hp : p ≤ s.wlen) :
      Leaves s i r (s.movedTo p)
  /-- STREAM_CLEAR. -/
  | emptied (r : Response) (h : r.status = .ok) (hi : i = .streamClear i.arg i.cnt) : Leaves s i r s.cleared
  /-- A DECODE that fails. -/
  | undecoded (r : Response) (h : r.status ≠ .ok) (hv : r.value = 0) (hi : i = .decode i.arg i.cnt) :
      Leaves s i r s.decoderReleased
  /-- A DECODE of m bits. -/
  | decoded (r : Response) (m : Nat) (h : r.status = .ok) (hm : 1 ≤ m) (hi : i = .decode i.arg i.cnt) :
      Leaves s i r (s.decoderReleased.movedTo (s.rpos + m))

/-- No command writes the field that holds LAT - 1. -/
theorem Leaves.wait {s w : State} {i : Instr} {r : Response} (h : Leaves s i r w) : w.wait = s.wait := by
  cases h <;> rfl

/-- An Append inside a command: CAPACITY_ERROR with nothing written, or `extended`. -/
theorem append_then {s : State} {i : Instr} (bits : Bits) (f : State → Response) (hf : ∀ t, (f t).status = .ok)
    (hi : i = .encodeAppend i.arg i.cnt ∨ i = .appendBit i.arg i.cnt ∨ i = .appendBits i.arg i.cnt ∨
      i = .tableAppend i.arg i.cnt) :
    ∃ r w, (match s.append bits with
      | .error e => s.raise e.status e.len e.aux
      | .ok t => Host.Outcome.next (t.answered (f t))) = .next (w.answered r) ∧
      r.status ≠ .invalidTableRange ∧ Leaves s i r w := by
  rcases s.append_cases bits with ⟨_, h⟩ | ⟨hc, h⟩
  · rw [h]
    exact ⟨_, s, rfl, by simp, .nothing _ fun _ => rfl⟩
  · rw [h]
    exact ⟨_, _, rfl, by simp [hf], .appended _ bits (hf _) hc hi⟩

/-- An error answer that writes nothing. -/
theorem raise_leaves (s : State) (i : Instr) (st : Status) (l a : Nat) (h : st ≠ .invalidTableRange) :
    ∃ r w, s.raise st l a = .next (w.answered r) ∧ r.status ≠ .invalidTableRange ∧ Leaves s i r w :=
  ⟨_, s, rfl, h, .nothing _ fun _ => rfl⟩

/-- A success answer that writes nothing. -/
theorem respond_leaves (s : State) (i : Instr) (v l a : Nat) :
    ∃ r w, s.respond .ok v l a = .next (w.answered r) ∧ r.status ≠ .invalidTableRange ∧ Leaves s i r w :=
  ⟨_, s, rfl, by simp, .nothing _ fun h => absurd rfl h⟩

/-- Every command faults, which takes a state that breaks R25 (entry 11), or answers one response
on a state it leaves in one of the ways above. -/
theorem exec_cases (i : Instr) (s : State) :
    (exec i s = .fault .positionOutsideBuffer ∧ ¬s.CursorsOk) ∨
    ∃ r w, exec i s = .next (w.answered r) ∧ r.status ≠ .invalidTableRange ∧ Leaves s i r w := by
  cases i with
  | query a c => exact .inr (respond_leaves _ _ _ _ _)
  | encode a c =>
    right
    simp only [exec, execEncode]
    split
    · exact raise_leaves _ _ _ _ _ (by simp)
    · exact respond_leaves _ _ _ _ _
  | encodeAppend a c =>
    right
    simp only [exec, execEncodeAppend]
    split
    · exact raise_leaves _ _ _ _ _ (by simp)
    · exact append_then _ (fun _ => ⟨.ok, _, _, _⟩) (fun _ => rfl) (.inl rfl)
  | decode a c =>
    simp only [exec, execDecode]
    rcases s.readBits_cases s.rpos (s.wlen - s.rpos) with ⟨_, h⟩ | ⟨hk, hc, h⟩
    · right
      rw [h]
      simp only
      split
      · exact ⟨_, _, rfl, by simp, .undecoded _ (by simp) rfl rfl⟩
      · exact ⟨_, _, rfl, by simp, .undecoded _ (by simp) rfl rfl⟩
      · exact ⟨_, _, rfl, by simp, .decoded _ _ rfl (runUnary_done_pos ‹_›) rfl⟩
    · left
      rw [h]
      exact ⟨rfl, by intro hx; have := hx.1; have := hx.2; omega⟩
  | appendBit a c => exact .inr (append_then _ (fun t => ⟨.ok, 0, t.wlen, 0⟩) (fun _ => rfl) (.inr (.inl rfl)))
  | appendBits a c =>
    exact .inr (append_then _ (fun t => ⟨.ok, 0, t.wlen, 0⟩) (fun _ => rfl) (.inr (.inr (.inl rfl))))
  | readBit a c =>
    simp only [exec, execReadBit]
    split
    · exact .inr (raise_leaves _ _ _ _ _ (by simp))
    · rcases s.readBits_cases s.rpos 1 with ⟨_, h⟩ | ⟨hk, hc, h⟩
      · right
        rw [h]
        exact ⟨_, _, rfl, by simp, .read _ rfl rfl ‹_›⟩
      · left
        rw [h]
        exact ⟨rfl, by intro hx; have := hx.1; have := hx.2; omega⟩
  | tableLookup a c =>
    right
    simp only [exec, execTableLookup]
    split
    · exact raise_leaves _ _ _ _ _ (by simp)
    · split
      · exact raise_leaves _ _ _ _ _ (by simp)
      · exact respond_leaves _ _ _ _ _
  | tableAppend a c =>
    right
    simp only [exec, execTableAppend]
    split
    · exact raise_leaves _ _ _ _ _ (by simp)
    · split
      · exact raise_leaves _ _ _ _ _ (by simp)
      · exact append_then _ (fun _ => ⟨.ok, _, _, _⟩) (fun _ => rfl) (.inr (.inr (.inr rfl)))
  | streamClear a c => exact .inr ⟨_, _, rfl, by simp, .emptied _ rfl rfl⟩
  | streamSeek a c =>
    right
    simp only [exec, execStreamSeek]
    split
    · exact raise_leaves _ _ _ _ _ (by simp)
    · exact ⟨_, _, rfl, by simp, .sought _ _ rfl rfl (by omega)⟩
  | readByte a c =>
    simp only [exec, execReadByte]
    split
    · exact .inr (raise_leaves _ _ _ _ _ (by simp))
    · rcases s.readBits_cases (8 * c) (min 8 (s.wlen - 8 * c)) with ⟨_, h⟩ | ⟨hk, hc, h⟩
      · right
        rw [h]
        exact respond_leaves _ _ _ _ _
      · left
        rw [h]
        exact ⟨rfl, by intro hx; have := hx.1; have := hx.2; omega⟩
  | reservedC a c => exact .inr (raise_leaves _ _ _ _ _ (by simp))
  | reservedD a c => exact .inr (raise_leaves _ _ _ _ _ (by simp))
  | reservedE a c => exact .inr (raise_leaves _ _ _ _ _ (by simp))
  | reservedF a c => exact .inr (raise_leaves _ _ _ _ _ (by simp))

/-- The same, from a command that answered. -/
theorem exec_next {i : Instr} {s t : State} (h : exec i s = .next t) :
    ∃ r w, t = w.answered r ∧ r.status ≠ .invalidTableRange ∧ Leaves s i r w := by
  rcases exec_cases i s with ⟨hf, _⟩ | ⟨r, w, hn, hr, hl⟩
  · rw [hf] at h; cases h
  · rw [hn] at h; cases h; exact ⟨r, w, rfl, hr, hl⟩

end Sys2Proof.Machine
end

