-- ==== Sys2Proof/Laws/PerInstr.lean ====
section
/-! SUPPORT. Per-instruction family EncodeFits: a well-formed command's word fits CMDW bits and carries its
opcode in bits 3:0 (30_encoding.md R61, R62, R65). -/

namespace Sys2Proof.Laws.EncodeFits

/-- The word fits the port and its OP field is the command's opcode, for every configuration. -/
def Statement (i : Instr) : Prop :=
  ∀ cfg : Config, WellFormed cfg i → encode cfg i < 2 ^ cfg.cmdw ∧ bitField (encode cfg i) 0 4 = opcode i

/-- The one argument behind every constructor's lemma. -/
theorem of_fields (i : Instr) : Statement i := by
  intro cfg ⟨ha, hc⟩
  have ho := opcode_lt i
  have hlow : i.arg * 16 + opcode i < 2 ^ (cfg.nw + 4) := by
    rw [pow_add]
    omega
  rw [encode_eq_sum cfg i ha]
  constructor
  · rw [Config.cmdw, show 4 + cfg.nw + cfg.cw = cfg.cw + (cfg.nw + 4) by omega, pow_add _ cfg.cw]
    calc i.cnt * 2 ^ (cfg.nw + 4) + (i.arg * 16 + opcode i)
        < i.cnt * 2 ^ (cfg.nw + 4) + 2 ^ (cfg.nw + 4) := by omega
      _ = (i.cnt + 1) * 2 ^ (cfg.nw + 4) := by ring
      _ ≤ 2 ^ cfg.cw * 2 ^ (cfg.nw + 4) := Nat.mul_le_mul_right _ hc
  · rw [bitField, Nat.shiftRight_zero, pow_add _ cfg.nw, ← Nat.mul_assoc]
    omega

theorem query (arg cnt : Nat) : Statement (.query arg cnt) := of_fields _
theorem encode (arg cnt : Nat) : Statement (.encode arg cnt) := of_fields _
theorem encodeAppend (arg cnt : Nat) : Statement (.encodeAppend arg cnt) := of_fields _
theorem decode (arg cnt : Nat) : Statement (.decode arg cnt) := of_fields _
theorem appendBit (arg cnt : Nat) : Statement (.appendBit arg cnt) := of_fields _
theorem appendBits (arg cnt : Nat) : Statement (.appendBits arg cnt) := of_fields _
theorem readBit (arg cnt : Nat) : Statement (.readBit arg cnt) := of_fields _
theorem tableLookup (arg cnt : Nat) : Statement (.tableLookup arg cnt) := of_fields _
theorem tableAppend (arg cnt : Nat) : Statement (.tableAppend arg cnt) := of_fields _
theorem streamClear (arg cnt : Nat) : Statement (.streamClear arg cnt) := of_fields _
theorem streamSeek (arg cnt : Nat) : Statement (.streamSeek arg cnt) := of_fields _
theorem readByte (arg cnt : Nat) : Statement (.readByte arg cnt) := of_fields _
theorem reservedC (arg cnt : Nat) : Statement (.reservedC arg cnt) := of_fields _
theorem reservedD (arg cnt : Nat) : Statement (.reservedD arg cnt) := of_fields _
theorem reservedE (arg cnt : Nat) : Statement (.reservedE arg cnt) := of_fields _
theorem reservedF (arg cnt : Nat) : Statement (.reservedF arg cnt) := of_fields _

end Sys2Proof.Laws.EncodeFits
end

