-- ==== Sys2Proof/Tests/Slice0.lean ====
section
/-! SUPPORT. Tests against the spec's own vectors (95_test_vectors.md), and for every obligation with hypotheses
a concrete state and operands that meet them, at the boundaries of its clauses. -/

namespace Sys2Proof.Tests

open Sys2Proof Sys2Proof.Machine

/-! ## Helpers -/

/-- The bits a string of 0 and 1 writes. -/
def bitString (s : String) : Bits := s.toList.map (fun c => c == '1')

/-- After reset, with this stream and read cursor. -/
def streamed (s : String) (rpos : Nat) : State := (State.reset.extended (bitString s)).movedTo rpos

/-- k zeros, then the string. -/
def zerosThen (k : Nat) (s : String) : State := State.reset.extended (List.replicate k false ++ bitString s)

/-- A state given only by its WLEN. -/
def ofLength (wlen : Nat) : State := { State.reset with wlen := wlen }

/-- The response, the stream and the cursor a command leaves. -/
def seen (o : Host.Outcome State Fault Refusal) : Option (Option Response × Bits × Nat) :=
  match o with
  | .next t => some (t.response, t.stream, t.rpos)
  | .fault _ => none
  | .refused _ => none

/-- The response and the lengths a command leaves. -/
def answer (o : Host.Outcome State Fault Refusal) : Option (Option Response × Nat × Nat) :=
  match o with
  | .next t => some (t.response, t.wlen, t.rpos)
  | .fault _ => none
  | .refused _ => none

/-- The fault a command stops with, if it does. -/
def faultOf (o : Host.Outcome State Fault Refusal) : Option Fault :=
  match o with
  | .next _ => none
  | .fault f => some f
  | .refused _ => none

/-! ## The checks refuse what is ill-formed -/

theorem test_wellFormed_widest : WellFormed Config.default (.appendBits 0xFFFFFFFF 0xFFFF) := by decide
theorem test_wellFormed_refuses_arg : ¬WellFormed Config.default (.encode 0x100000000 0) := by decide
theorem test_wellFormed_refuses_cnt : ¬WellFormed Config.default (.streamSeek 0 0x10000) := by decide

theorem test_legal_default : Config.default.Legal := by decide
theorem test_legal_refuses_nw : ¬Config.Legal { nw := 0, cap := 8, cw := 4, nmax := 1 } := by decide
theorem test_legal_refuses_cap : ¬Config.Legal { nw := 4, cap := 0, cw := 4, nmax := 1 } := by decide
theorem test_legal_refuses_cw_below_cap : ¬Config.Legal { nw := 4, cap := 16, cw := 4, nmax := 1 } := by decide
theorem test_legal_refuses_cw_below_lmax : ¬Config.Legal { nw := 9, cap := 8, cw := 4, nmax := 1 } := by decide
theorem test_legal_refuses_nmax_zero : ¬Config.Legal { nw := 4, cap := 8, cw := 4, nmax := 0 } := by decide
theorem test_legal_refuses_nmax_wide : ¬Config.Legal { nw := 4, cap := 8, cw := 4, nmax := 16 } := by decide

/-! ## Decoding (R62, R65, R73; section 2): one word per constructor -/

theorem test_decode_query : decode Config.default 0x0000000000000 = .query 0 0 := by decide
theorem test_decode_encode : decode Config.default 0xFFFF000000061 = .encode 6 0xFFFF := by decide
theorem test_decode_encodeAppend : decode Config.default 0x0000FFFFFFFF2 = .encodeAppend 0xFFFFFFFF 0 := by decide
theorem test_decode_decode : decode Config.default 0x0000000000003 = .decode 0 0 := by decide
theorem test_decode_appendBit : decode Config.default 0x0000000000014 = .appendBit 1 0 := by decide
theorem test_decode_appendBits : decode Config.default 0x0003000000065 = .appendBits 6 3 := by decide
theorem test_decode_readBit : decode Config.default 0x0000000000006 = .readBit 0 0 := by decide
theorem test_decode_tableLookup : decode Config.default 0x0000000001007 = .tableLookup 256 0 := by decide
theorem test_decode_tableAppend : decode Config.default 0x00000000012C8 = .tableAppend 300 0 := by decide
theorem test_decode_streamClear : decode Config.default 0x0000000000009 = .streamClear 0 0 := by decide
theorem test_decode_streamSeek : decode Config.default 0x002200000000A = .streamSeek 0 34 := by decide
theorem test_decode_readByte : decode Config.default 0x000100000000B = .readByte 0 1 := by decide
theorem test_decode_reservedC : decode Config.default 0x000700000005C = .reservedC 5 7 := by decide
theorem test_decode_reservedD : decode Config.default 0x000500000005D = .reservedD 5 5 := by decide
theorem test_decode_reservedE : decode Config.default 0xFFFFFFFFFFFFE = .reservedE 0xFFFFFFFF 0xFFFF := by decide
theorem test_decode_reservedF : decode Config.default 0xFFFFFFFFFFFFF = .reservedF 0xFFFFFFFF 0xFFFF := by decide
theorem test_encode_appendBits : encode Config.default (.appendBits 6 3) = 0x0003000000065 := by decide
theorem test_tableWord : decodeTableWord 4 0x7 = some (.tableLookup 0 0) := by decide

/-! ## Response words (R66, R73; section 2) -/

theorem test_word_encode6 : responseWord Config.default ⟨.ok, 6, 5, 2⟩ = 0x00020005000000060 := by decide
theorem test_word_capacity :
    responseWord Config.default ⟨.capacityError, 0, 32769, 32768⟩ = 0x80008001000000005 := by decide

/-! ## Assembler (R71, R72) -/

theorem test_assemble_two_operands : assemble "APPEND_BITS 0b110, 3" = some (.appendBits 6 3) := by decide
theorem test_assemble_hex : assemble "TABLE_LOOKUP 0x101" = some (.tableLookup 257 0) := by decide
theorem test_assemble_cnt : assemble "READ_BYTE 4" = some (.readByte 0 4) := by decide
theorem test_assemble_refuses_operand : assemble "QUERY 1" = none := by decide

/-! ## Derived constants (R11) and the ROM image (R176) -/

theorem test_derived_constants :
    lmax Config.default = 63 ∧ pw Config.default = 9 ∧ lwr Config.default = 5 ∧
      Config.default.cmdw = 52 ∧ rspw Config.default = 68 := by decide

theorem test_rom_first_words :
    (romImage Config.default).take 16 =
      [0x0201, 0x0602, 0x0603, 0x0A04, 0x0A05, 0x0A06, 0x0A07, 0x0E08,
       0x0E09, 0x0E0A, 0x0E0B, 0x0E0C, 0x0E0D, 0x0E0E, 0x0E0F, 0x1210] := by decide
theorem test_rom_row_127 : romWord Config.default 127 = 0x1E80 := by decide
theorem test_rom_last_row : romWord Config.default 255 = 0x2300 := by decide

/-! ## Commands (sections 1 and 3 to 9) -/

theorem test_query : seen (exec (.query 7 9) (streamed "010" 1)) =
    some (some ⟨.ok, 0, 3, 1⟩, bitString "010", 1) := by decide
theorem test_query_at_end : seen (exec (.query 0 0) (streamed "010" 3)) =
    some (some ⟨.ok, 1, 3, 3⟩, bitString "010", 3) := by decide

theorem test_encode_widest : seen (exec (.encode 4294967295 0) State.reset) =
    some (some ⟨.ok, 4294967295, 63, 31⟩, [], 0) := by decide
theorem test_encode_zero : seen (exec (.encode 0 0) State.reset) = some (some ⟨.domainError, 0, 0, 0⟩, [], 0) := by
  decide

theorem test_encodeAppend_second : seen (exec (.encodeAppend 6 0) (streamed "010" 0)) =
    some (some ⟨.ok, 6, 5, 2⟩, bitString "01000110", 0) := by decide
theorem test_encodeAppend_full : answer (exec (.encodeAppend 2 0) (ofLength 32766)) =
    some (some ⟨.capacityError, 0, 3, 2⟩, 32766, 0) := by decide

theorem test_decode_one_of_two : seen (exec (.decode 0 0) (streamed "0101" 0)) =
    some (some ⟨.ok, 2, 3, 1⟩, bitString "0101", 3) := by decide
theorem test_decode_errors :
    answer (exec (.decode 0 0) (zerosThen 32 "")) = some (some ⟨.decodeOverflow, 0, 32, 0⟩, 32, 0) ∧
    answer (exec (.decode 0 0) (zerosThen 31 "")) = some (some ⟨.truncatedStream, 0, 31, 0⟩, 31, 0) ∧
    answer (exec (.decode 0 0) (streamed "0010" 0)) = some (some ⟨.truncatedStream, 0, 4, 1⟩, 4, 0) := by decide

theorem test_appendBit_low_bit : seen (exec (.appendBit 2 0) State.reset) =
    some (some ⟨.ok, 0, 1, 0⟩, bitString "0", 0) := by decide
theorem test_appendBit_full : answer (exec (.appendBit 1 0) (ofLength 32768)) =
    some (some ⟨.capacityError, 0, 1, 0⟩, 32768, 0) := by decide

theorem test_appendBits_low_two : seen (exec (.appendBits 6 2) State.reset) =
    some (some ⟨.ok, 0, 2, 0⟩, bitString "10", 0) := by decide
theorem test_appendBits_past_nw : seen (exec (.appendBits 0xFFFFFFFF 40) State.reset) =
    some (some ⟨.ok, 0, 40, 0⟩, List.replicate 8 false ++ List.replicate 32 true, 0) := by decide

theorem test_readBit_last : seen (exec (.readBit 0 0) (streamed "010" 2)) =
    some (some ⟨.ok, 0, 3, 1⟩, bitString "010", 3) := by decide
theorem test_readBit_at_end : seen (exec (.readBit 0 0) (streamed "010" 3)) =
    some (some ⟨.endOfStream, 0, 0, 0⟩, bitString "010", 3) := by decide

theorem test_tableLookup_last : seen (exec (.tableLookup 256 0) State.reset) =
    some (some ⟨.ok, 256, 17, 8⟩, [], 0) := by decide
theorem test_tableLookup_miss : seen (exec (.tableLookup 257 0) State.reset) =
    some (some ⟨.tableMiss, 0, 0, 0⟩, [], 0) := by decide

theorem test_tableAppend : seen (exec (.tableAppend 4 0) State.reset) =
    some (some ⟨.ok, 4, 5, 2⟩, bitString "00100", 0) := by decide
theorem test_tableAppend_miss_before_capacity : answer (exec (.tableAppend 300 0) (ofLength 32768)) =
    some (some ⟨.tableMiss, 0, 0, 0⟩, 32768, 0) := by decide

theorem test_streamClear : seen (exec (.streamClear 0 0) (streamed "010" 2)) =
    some (some ⟨.ok, 0, 0, 0⟩, [], 0) := by decide

theorem test_streamSeek_to_end : seen (exec (.streamSeek 0 3) (streamed "010" 0)) =
    some (some ⟨.ok, 0, 3, 3⟩, bitString "010", 3) := by decide
theorem test_streamSeek_past_end : seen (exec (.streamSeek 0 4) (streamed "010" 0)) =
    some (some ⟨.positionRange, 0, 3, 0⟩, bitString "010", 0) := by decide

theorem test_readByte_partial : answer (exec (.readByte 0 1) (streamed "0100011011" 0)) =
    some (some ⟨.ok, 192, 2, 0⟩, 10, 0) := by decide
theorem test_readByte_past_end : answer (exec (.readByte 0 1) (streamed "01000110" 0)) =
    some (some ⟨.positionRange, 0, 1, 0⟩, 8, 0) := by decide

theorem test_reservedC : seen (exec (.reservedC 5 7) (streamed "01" 1)) =
    some (some ⟨.illegalCommand, 0, 0, 0⟩, bitString "01", 1) := by decide
theorem test_reservedD : seen (exec (.reservedD 0 0) (streamed "01" 1)) =
    some (some ⟨.illegalCommand, 0, 0, 0⟩, bitString "01", 1) := by decide
theorem test_reservedE : seen (exec (.reservedE 0 0) (streamed "01" 1)) =
    some (some ⟨.illegalCommand, 0, 0, 0⟩, bitString "01", 1) := by decide
theorem test_reservedF : seen (exec (.reservedF 0 0) (streamed "01" 1)) =
    some (some ⟨.illegalCommand, 0, 0, 0⟩, bitString "01", 1) := by decide

/-! ## One step (R220, R230, R232) -/

theorem test_step_runs_offered_command : seen (step (State.reset.withFetchWord 52 0x0000000000042)) =
    some (some ⟨.ok, 4, 5, 2⟩, bitString "00100", 0) := by decide
theorem test_step_idle : seen (step State.reset) = some (none, [], 0) := by decide
theorem test_step_reset_drops_response :
    seen (step { streamed "010" 1 with
      port := .pending ⟨.ok, 1, 1, 0⟩, pins := [⟨true, true, 0, true⟩] }) = some (none, [], 0) := by decide

/-! ## Witnesses of the obligations' hypotheses -/

theorem witness_DecodeOfEncode : WellFormed Config.default (.readByte 0xFFFFFFFF 0xFFFF) := by decide
theorem witness_DecodeReadsTheFields : WellFormed Config.default (.reservedC 0xFFFFFFFF 0xFFFF) := by decide
theorem witness_EncodeOfDecode : 0xFFFFFFFFFFFFF < 2 ^ Config.default.cmdw := by decide
theorem witness_ResponseWordHoldsItsFields :
    Response.Fits Config.default ⟨.ok, 0xFFFFFFFF, 0xFFFF, 0xFFFF⟩ := by decide
theorem witness_IgnoredFieldsDoNothing : 3 % 2 = 1 % 2 := by decide
theorem witness_ReservedOpcodesAreIllegalCommands :
    Instr.reservedF 0 0 ∈ [Instr.reservedC 0 0, .reservedD 0 0, .reservedE 0 0, .reservedF 0 0] := by decide
theorem witness_CodewordShape : 1 ≤ 0xFFFFFFFF ∧ 0xFFFFFFFF < 2 ^ Config.default.nw := by decide
theorem witness_CodewordsArePrefixFree :
    (1 ≤ 1 ∧ 1 ≤ 2 ∧ 1 ≠ 2) ∧ codeword 6 = List.replicate 2 false ++ true :: bitString "10" := by decide
theorem witness_CodeLengthMonotoneAndCounted :
    (1 ≤ 3 ∧ 3 < 4) ∧ (2 ^ 1 ≤ 3 ∧ 3 < 2 ^ (1 + 1)) ∧ (2 ^ 2 ≤ 4 ∧ 4 < 2 ^ (2 + 1)) := by decide
theorem witness_GdecInvertsCodeword : 1 ≤ 0xFFFFFFFF ∧ 0xFFFFFFFF < 2 ^ 32 := by decide

theorem witness_EncodeAppendExtendsStream_fits :
    (ofLength 32765).Inv ∧ (ofLength 32765).wlen + codeLength 2 ≤ (ofLength 32765).cfg.cap := by decide
theorem witness_EncodeAppendExtendsStream_full :
    (ofLength 32766).Inv ∧ (ofLength 32766).cfg.cap < (ofLength 32766).wlen + codeLength 2 := by decide
theorem witness_EncodeAppendIsEncodeThenAppendBits :
    2 ≠ 0 ∧ (ofLength 32765).wlen + codeLength 2 ≤ (ofLength 32765).cfg.cap ∧
      (ofLength 32766).cfg.cap < (ofLength 32766).wlen + codeLength 2 := by decide

theorem witness_DecodeFollowsGdec_overflow :
    (zerosThen 32 "").Inv ∧ gdec 32 (zerosThen 32 "").unread = .overflow := by decide
theorem witness_DecodeFollowsGdec_unary :
    (zerosThen 31 "").Inv ∧ gdec 32 (zerosThen 31 "").unread = .truncated .unary 31 := by decide
theorem witness_DecodeFollowsGdec_binary :
    (streamed "0010" 0).Inv ∧ gdec 32 (streamed "0010" 0).unread = .truncated .binary 4 := by decide
theorem witness_DecodeFollowsGdec_ok :
    (streamed "0101" 0).Inv ∧ gdec 32 (streamed "0101" 0).unread = .ok 2 3 := by decide
theorem witness_DecoderMachineComputesGdec : 1 ≤ Config.default.nw := by decide
theorem witness_EncodeAppendThenDecodeRoundTrip_decode :
    (streamed "1010" 0).Inv ∧ (streamed "1010" 0).unread = codeword 1 ++ bitString "010" := by decide
theorem witness_EncodeAppendThenDecodeRoundTrip_append :
    (streamed "1" 1).Inv ∧ (streamed "1" 1).rpos = (streamed "1" 1).wlen ∧
      0xFFFFFFFF < 2 ^ (streamed "1" 1).cfg.nw ∧
      (streamed "1" 1).wlen + codeLength 0xFFFFFFFF ≤ (streamed "1" 1).cfg.cap := by decide
theorem witness_TruncatedDecodeConsumesNothing_unary :
    (zerosThen 31 "").Inv ∧ 31 < (zerosThen 31 "").cfg.nw ∧
      (zerosThen 31 "").unread = List.replicate 31 false := by decide
theorem witness_TruncatedDecodeConsumesNothing_binary :
    (streamed "0010" 0).Inv ∧ 2 < (streamed "0010" 0).cfg.nw ∧ (bitString "0").length < 2 ∧
      (streamed "0010" 0).unread = List.replicate 2 false ++ true :: bitString "0" := by decide
theorem witness_DecodeOverflowsAtNwZeros :
    (zerosThen 32 "").Inv ∧
      (zerosThen 32 "").unread = List.replicate (zerosThen 32 "").cfg.nw false ++ [] := by decide
theorem witness_TruncatedDecodeCanBeRetried :
    (streamed "0001" 0).Inv ∧ (streamed "0001" 0).unread.length < codeLength 13 ∧
      (streamed "0001" 0).unread ++ bitsOf 3 5 = codeword 13 ++ [] ∧
      (streamed "0001" 0).wlen + 3 ≤ (streamed "0001" 0).cfg.cap := by decide

theorem witness_AppendBitExtendsStream :
    ((ofLength 32767).Inv ∧ (ofLength 32767).wlen < (ofLength 32767).cfg.cap) ∧
      ((ofLength 32768).Inv ∧ (ofLength 32768).wlen = (ofLength 32768).cfg.cap) := by decide
theorem witness_AppendBitsExtendsStream :
    State.reset.Inv ∧ State.reset.wlen + 32768 ≤ State.reset.cfg.cap ∧
      State.reset.cfg.cap < State.reset.wlen + 32769 ∧ 0 < 32768 := by decide
theorem witness_ReadBitTakesNextBit :
    (streamed "010" 2).Inv ∧ (streamed "010" 2).stream[(streamed "010" 2).rpos]? = some false ∧
      (streamed "010" 3).Inv ∧ (streamed "010" 3).rpos = (streamed "010" 3).wlen := by decide
theorem witness_ResetLeavesAnEmptyStream : 1 ≤ Config.default.nw := by decide
theorem witness_QueryReportsTheStream : 1 ≤ State.reset.cfg.nw := by decide
theorem witness_ClearedLooksReset :
    (streamed "010" 1).Inv ∧ seen (exec (.streamClear 0 0) (streamed "010" 1)) ≠ none := by decide
theorem witness_StreamSeekSetsTheCursor :
    3 ≤ (streamed "010" 0).wlen ∧ (streamed "010" 0).wlen < 4 := by decide
theorem witness_ReadByteShowsEightPositions :
    (streamed "010001101" 0).Inv ∧ 8 * 1 < (streamed "010001101" 0).wlen ∧ 0x80 < 2 ^ Config.default.nw ∧
      (streamed "01000110" 0).Inv ∧ (streamed "01000110" 0).wlen ≤ 8 * 1 := by decide

theorem witness_RomRowsHoldTheEncoderPairs : 255 < Config.default.nmax := by decide
theorem witness_TableLookupAnswersTheRow :
    256 ≤ State.reset.cfg.nmax ∧ State.reset.cfg.nmax < 257 ∧ 257 ≠ 0 := by decide
theorem witness_TableAppendExtendsStream :
    ((ofLength 32751).Inv ∧ 256 ≤ (ofLength 32751).cfg.nmax ∧
      (ofLength 32751).wlen + codeLength 256 ≤ (ofLength 32751).cfg.cap) ∧
    ((ofLength 32752).Inv ∧ (ofLength 32752).cfg.cap < (ofLength 32752).wlen + codeLength 256) ∧
    (ofLength 32768).cfg.nmax < 257 := by decide
theorem witness_TableAgreesWithEncoder :
    256 ≤ State.reset.cfg.nmax ∧ State.reset.cfg.nmax < 257 ∧
      State.reset.wlen + codeLength 257 ≤ State.reset.cfg.cap := by decide

theorem witness_ErrorsChangeNoState :
    exec (.readBit 0 0) State.reset = .next (State.reset.answered ⟨.endOfStream, 0, 0, 0⟩) ∧
      (State.reset.answered ⟨.endOfStream, 0, 0, 0⟩).response = some ⟨.endOfStream, 0, 0, 0⟩ ∧
      Status.endOfStream ≠ .ok := ⟨rfl, rfl, by decide⟩
theorem witness_EveryCommandHasOneStatus :
    exec (.streamClear 0 0) State.reset = .next (State.reset.cleared.answered ⟨.ok, 0, 0, 0⟩) := rfl
theorem witness_ReadOnlyCommandsWriteNothing :
    exec (.reservedC 0 0) State.reset = .next (State.reset.answered ⟨.illegalCommand, 0, 0, 0⟩) := rfl
theorem witness_AppendsWriteOnlyAtTheEnd :
    State.reset.buf.wf = true ∧
      exec (.appendBit 1 0) State.reset = .next ((State.reset.extended [true]).answered ⟨.ok, 0, 1, 0⟩) :=
  ⟨rfl, rfl⟩
theorem witness_CursorCommandsKeepTheBuffer :
    exec (.streamSeek 0 0) State.reset = .next ((State.reset.movedTo 0).answered ⟨.ok, 0, 0, 0⟩) := rfl
theorem witness_OnlyNamedCommandsWriteWlenAndRpos :
    answer (exec (.appendBit 1 0) (streamed "010" 1)) = some (some ⟨.ok, 0, 4, 0⟩, 4, 1) ∧
      answer (exec (.streamClear 0 0) (streamed "010" 1)) = some (some ⟨.ok, 0, 0, 0⟩, 0, 0) ∧
      answer (exec (.readBit 0 0) (streamed "010" 1)) = some (some ⟨.ok, 1, 2, 0⟩, 3, 2) := by decide

theorem witness_StepKeepsStatesLegal : State.reset.Inv ∧ step State.reset = .next State.reset := ⟨by decide, rfl⟩
theorem witness_EveryCommandCompletes :
    (streamed "010" 1).Inv ∧ WellFormed (streamed "010" 1).cfg (.appendBits 0xFFFFFFFF 0xFFFF) := by decide
theorem witness_StepNeverFaultsFromLegalStates :
    (State.powerOn Config.default).Inv ∧ (State.powerOn Config.default).port = .unreset ∧
      (State.powerOn Config.default).pinsNow.rst = false := by decide
/-- Two states with the same empty stream whose buffers differ past its end. -/
theorem witness_BitsPastTheEndAreUnobservable :
    State.reset.Inv ∧ (streamed "111" 1).cleared.Inv ∧ (streamed "111" 1).cleared.cfg = State.reset.cfg ∧
      (streamed "111" 1).cleared.stream = State.reset.stream ∧
      (streamed "111" 1).cleared.rpos = State.reset.rpos ∧
      (streamed "111" 1).cleared.buf ≠ State.reset.buf := by decide
/-- A buffer of 8 bits, with these values of WLEN and RPOS. -/
def smallWith (wlen rpos : Nat) : State :=
  { State.resetFor { nw := 4, cap := 8, cw := 4, nmax := 15 } with wlen := wlen, rpos := rpos }

/-- The two sides of each boundary: the last position that exists, and the first that does not. -/
theorem witness_ReadsPastCapFault_readBit :
    faultOf (exec (.readBit 0 0) (smallWith 9 8)) = some .positionOutsideBuffer ∧
    answer (exec (.readBit 0 0) (smallWith 9 7)) = some (some ⟨.ok, 0, 8, 0⟩, 9, 8) := by decide
theorem witness_ReadsPastCapFault_readByte :
    faultOf (exec (.readByte 0 1) (smallWith 9 0)) = some .positionOutsideBuffer ∧
    answer (exec (.readByte 0 0) (smallWith 9 0)) = some (some ⟨.ok, 0, 2, 0⟩, 9, 0) := by decide
theorem witness_ReadsPastCapFault_decode :
    faultOf (exec (.decode 0 0) (smallWith 9 8)) = some .positionOutsideBuffer ∧
    answer (exec (.decode 0 0) (smallWith 9 9)) = some (some ⟨.truncatedStream, 0, 0, 0⟩, 9, 9) ∧
    answer (exec (.decode 0 0) (smallWith 3 9)) = some (some ⟨.truncatedStream, 0, 0, 0⟩, 3, 9) := by decide
theorem witness_NothingWritesTheRom : step State.reset = .next State.reset := rfl

theorem witness_ElaborationRefusesIllegalConfigurations :
    2 ^ 4 - 1 < 16 ∧ 2 ^ 4 - 1 < 2 * 9 - 1 ∧ Config.Legal { nw := 4, cap := 15, cw := 4, nmax := 15 } := by decide
theorem witness_FirstEdgeMustReset : elaborate Config.default = .ok (State.powerOn Config.default) := by
  unfold elaborate
  rw [if_pos (by decide)]
theorem witness_ResetEdgeWins :
    ({ State.reset with port := .busy ⟨.ok, 0, 0, 0⟩ 0, pins := [⟨true, false, 0, false⟩] } : State).pinsNow.rst =
      true := by decide
theorem witness_StepRunsTheAcceptedCommand :
    (State.reset.offering 0x61).port = .ready ∧ (State.reset.offering 0x61).pins = [⟨false, true, 0x61, false⟩] := by
  decide
theorem witness_UnacceptedWordsHaveNoEffect_ready :
    State.reset.pinsNow.rst = false ∧ State.reset.port ≠ .unreset ∧ State.reset.port = .ready ∧
      State.reset.pinsNow.cmdValid = false := by decide
/-- A command offered while another is in progress. -/
theorem witness_UnacceptedWordsHaveNoEffect_busy :
    let s : State := { State.reset with port := .busy ⟨.ok, 0, 0, 0⟩ 0, pins := [⟨false, true, 0x61, false⟩] }
    s.pinsNow.rst = false ∧ s.port ≠ .unreset ∧ s.port ≠ .ready ∧ s.pins = [⟨false, true, 0x61, false⟩] := by decide
/-- A command offered at the edge that takes a response. -/
theorem witness_UnacceptedWordsHaveNoEffect_taken :
    let s : State := { State.reset with port := .pending ⟨.ok, 0, 0, 0⟩, pins := [⟨false, true, 0x61, true⟩] }
    s.pinsNow.rst = false ∧ s.port ≠ .unreset ∧ s.port ≠ .ready ∧ s.pinsNow.rspReady = true := by decide
theorem witness_ResponseIsHeldUntilTaken :
    ({ State.reset with port := .pending ⟨.ok, 0, 0, 0⟩ } : State).pinsNow.rspReady = false ∧
      ({ State.reset with port := .pending ⟨.ok, 0, 0, 0⟩, pins := [⟨false, false, 0, true⟩] } : State).pinsNow =
        ⟨false, false, 0, true⟩ := by decide
theorem witness_ResponseBecomesValidAfterLat :
    (State.reset.answered ⟨.ok, 0, 0, 0⟩).port = .busy ⟨.ok, 0, 0, 0⟩ 0 ∧
      ∀ p ∈ (State.reset.answered ⟨.ok, 0, 0, 0⟩).pins, p.rst = false := by decide

end Sys2Proof.Tests
end

/-! PROOFS of the family 00_scope. The conventions of R15 and R16: an error changes no state, and every
command completes. -/

namespace Sys2Proof.Machine

/-! ## Errors (R15, R200) -/

/-- A command that reports an error has VALUE 0, and of the whole state it can have written only the Decoder's
working registers. -/
theorem Leaves.of_error {s w : State} {i : Instr} {r : Response} (h : Leaves s i r w) (hr : r.status ≠ .ok) :
    r.value = 0 ∧ (w = s ∨ w = s.decoderReleased) := by
  cases h with
  | nothing hv => exact ⟨hv hr, .inl rfl⟩
  | undecoded _ hv _ => exact ⟨hv, .inr rfl⟩
  | appended _ hok => exact absurd hok hr
  | read hok => exact absurd hok hr
  | sought _ hok => exact absurd hok hr
  | emptied hok => exact absurd hok hr
  | decoded _ hok => exact absurd hok hr

/-- Settles O35, by the inversion of `exec`. -/
theorem errorsChangeNoState : Obligations.ErrorsChangeNoState := by
  intro i s t r h hr hne
  obtain ⟨r', w, rfl, -, hl⟩ := exec_next h
  obtain rfl : r' = r := by simpa using hr
  obtain ⟨hv, rfl | rfl⟩ := hl.of_error hne
  · exact ⟨hv, rfl, rfl, rfl⟩
  · exact ⟨hv, rfl, rfl, rfl⟩

/-! ## How the Decoder's machine ends (42_decoder.md R121) -/

/-- BINARY with all the remainder bits before it ends in DONE, whatever follows them. -/
theorem runBinary_append (rpos : Nat) (d : Decoder) (bits rest : Bits) (h : d.e = d.k + bits.length) :
    runBinary rpos d (bits ++ rest) = .done (2 ^ d.e + bits.foldl shiftIn d.r) (2 * d.e + 1) := by
  induction bits generalizing d with
  | nil =>
    have hk : d.k = d.e := h.symm
    cases rest <;> simp [runBinary, decoderDone, hk]
  | cons b bits ih =>
    rw [List.length_cons] at h
    rw [List.cons_append, runBinary, if_neg (by omega), ih _ (by simp only; omega), List.foldl_cons]

/-- BINARY with too few remainder bits before it stops at the stream's end. -/
theorem runBinary_of_short (rpos : Nat) (d : Decoder) (s : Bits) (h : d.k + s.length < d.e) :
    runBinary rpos d s = .truncated d.phase (d.p + s.length - rpos) := by
  induction s generalizing d with
  | nil =>
    rw [runBinary, if_neg (show ¬d.k = d.e from Nat.ne_of_lt h)]
    rfl
  | cons b s ih =>
    rw [List.length_cons] at h
    rw [runBinary, if_neg (by omega), ih _ (by simp only; omega)]
    simp only [List.length_cons, Nat.add_assoc, Nat.add_comm 1]

/-- UNARY counts fewer than NW zeros up to the terminator and goes on to BINARY. -/
theorem runUnary_terminated (nw rpos z : Nat) (d : Decoder) (s : Bits) (h : d.e + z < nw) :
    runUnary nw rpos d (List.replicate z false ++ true :: s) =
      runBinary rpos { d with p := d.p + z + 1, e := d.e + z, k := 0, phase := .binary } s := by
  induction z generalizing d with
  | zero => simp [runUnary]
  | succ z ih =>
    rw [List.replicate_succ, List.cons_append, runUnary, if_neg (by decide), if_neg (by omega),
      ih _ (by simp only; omega)]
    simp only [Nat.add_assoc, Nat.add_comm 1]

/-- UNARY with fewer than NW zeros before it, and nothing else, stops at the stream's end. -/
theorem runUnary_zeros (nw rpos z : Nat) (d : Decoder) (h : d.e + z < nw) :
    runUnary nw rpos d (List.replicate z false) = .truncated d.phase (d.p + z - rpos) := by
  induction z generalizing d with
  | zero => rfl
  | succ z ih =>
    rw [List.replicate_succ, runUnary, if_neg (by decide), if_neg (by omega), ih _ (by simp only; omega)]
    simp only [Nat.add_assoc, Nat.add_comm 1]

/-- UNARY overflows at the NW-th zero, whatever follows it (R125). -/
theorem runUnary_overflow (nw rpos z : Nat) (d : Decoder) (s : Bits) (h : d.e + (z + 1) = nw) :
    runUnary nw rpos d (List.replicate (z + 1) false ++ s) = .overflow := by
  induction z generalizing d with
  | zero => simp [runUnary, h]
  | succ z ih =>
    rw [List.replicate_succ, List.cons_append, runUnary, if_neg (by decide), if_neg (by omega),
      ih _ (by simp only; omega)]

/-- The whole machine overflows where NW zeros come first, whatever follows them (R125). -/
theorem runDecoder_overflow {nw : Nat} (rpos : Nat) (s : Bits) (h : 1 ≤ nw) :
    runDecoder nw rpos (List.replicate nw false ++ s) = .overflow := by
  obtain ⟨z, rfl⟩ := Nat.exists_eq_add_of_le' h
  exact runUnary_overflow _ _ z _ _ (Nat.zero_add _)

/-- A stream of fewer than NW zeros ends in UNARY, all of it consumed (R124). -/
theorem runDecoder_zeros {nw z : Nat} (rpos : Nat) (h : z < nw) :
    runDecoder nw rpos (List.replicate z false) = .truncated .unary z := by
  rw [runDecoder, runUnary_zeros _ _ _ _ (by simpa [decoderStart] using h)]
  simp [decoderStart]

/-- A stream with too few bits after the terminator ends in BINARY, all of it consumed (R124). -/
theorem runDecoder_short {nw z : Nat} (rpos : Nat) {s : Bits} (h : z < nw) (hs : s.length < z) :
    runDecoder nw rpos (List.replicate z false ++ true :: s) =
      .truncated .binary (List.replicate z false ++ true :: s).length := by
  rw [runDecoder, runUnary_terminated _ _ _ _ _ (by simpa [decoderStart] using h),
    runBinary_of_short _ _ _ (by simpa [decoderStart] using hs)]
  simp [decoderStart]
  omega

/-- A stream that starts with a whole codeword of e zeros, e < NW, gives its integer and length. -/
theorem runDecoder_done {nw : Nat} (rpos : Nat) (bits rest : Bits) (h : bits.length < nw) :
    runDecoder nw rpos (List.replicate bits.length false ++ true :: (bits ++ rest)) =
      .done (2 ^ bits.length + valOf bits) (2 * bits.length + 1) := by
  rw [runDecoder, runUnary_terminated _ _ _ _ _ (by simpa [decoderStart] using h),
    runBinary_append _ _ _ _ (by simp [decoderStart])]
  simp [decoderStart, valOf]

/-- A stream with at least k leading zeros starts with k zeros. -/
theorem exists_eq_replicate_append {k : Nat} {s : Bits} (h : k ≤ leadingZeros s) :
    ∃ t, s = List.replicate k false ++ t := by
  obtain ⟨j, hj⟩ := Nat.exists_eq_add_of_le h
  rcases leadingZeros_split s with hs | ⟨t, hs⟩
  · exact ⟨_, by rwa [hj, List.replicate_add] at hs⟩
  · exact ⟨_, by rwa [hj, List.replicate_add, List.append_assoc] at hs⟩

/-- The machine overflows, stops at the stream's end in UNARY or BINARY, or reads the 2e + 1 bits of an NW-bit
integer 2^e + r. -/
theorem runDecoder_cases (nw rpos : Nat) (unread : Bits) (h : 1 ≤ nw) :
    runDecoder nw rpos unread = .overflow ∨
    (∃ phase, phase.code ≤ 1 ∧ runDecoder nw rpos unread = .truncated phase unread.length) ∨
    ∃ e r, e < nw ∧ r < 2 ^ e ∧ 2 * e + 1 ≤ unread.length ∧
      runDecoder nw rpos unread = .done (2 ^ e + r) (2 * e + 1) := by
  by_cases hz : nw ≤ leadingZeros unread
  · obtain ⟨t, rfl⟩ := exists_eq_replicate_append hz
    exact .inl (runDecoder_overflow rpos t h)
  right
  rw [Nat.not_le] at hz
  rcases leadingZeros_split unread with hs | ⟨t, hs⟩
  · generalize leadingZeros unread = z at hs hz
    subst hs
    exact .inl ⟨.unary, by decide, by rw [runDecoder_zeros rpos hz, List.length_replicate]⟩
  · generalize leadingZeros unread = z at hs hz
    subst hs
    rcases Nat.lt_or_ge t.length z with ht | ht
    · exact .inl ⟨.binary, by decide, runDecoder_short rpos hz ht⟩
    · obtain ⟨bits, rest, rfl, rfl⟩ : ∃ bits rest, t = bits ++ rest ∧ bits.length = z :=
        ⟨t.take z, t.drop z, (List.take_append_drop z t).symm, List.length_take_of_le ht⟩
      exact .inr ⟨bits.length, valOf bits, hz, valOf_lt bits, by simp; omega, runDecoder_done rpos bits rest hz⟩

/-! ## Widths in a legal configuration (00_scope.md R6 to R9, R11) -/

section Widths
variable {c : Config} (h : c.Legal)
include h

theorem cap_lt_of_legal : c.cap < 2 ^ c.cw := by
  obtain ⟨-, -, hcap, -⟩ := h
  have := Nat.two_pow_pos c.cw
  omega

theorem one_lt_of_legal : 1 < 2 ^ c.cw := by
  have := cap_lt_of_legal h
  obtain ⟨-, hpos, -⟩ := h
  omega

/-- LMAX fits CW bits: a count below NW gives a length that does. -/
theorem length_lt_of_legal {e : Nat} (he : e < c.nw) : 2 * e + 1 < 2 ^ c.cw := by
  obtain ⟨-, -, -, hlmax, -⟩ := h
  have := Nat.two_pow_pos c.cw
  omega

theorem nw_lt_of_legal : c.nw < 2 ^ c.cw := by
  have hnw : 1 ≤ c.nw := h.1
  have := length_lt_of_legal h (e := c.nw - 1) (by omega)
  omega

/-- A ROM row's packed field is no wider than VALUE. -/
theorem pw_le_of_legal : pw c ≤ c.nw := by
  obtain ⟨-, -, -, -, hmin, hmax⟩ := h
  exact (Nat.log2_lt (by omega)).mpr (by omega)

/-- A ROM row's length field is no wider than LEN. -/
theorem lwr_le_of_legal : lwr c ≤ c.cw := by
  have hpw := pw_le_of_legal h
  have hnw : 1 ≤ c.nw := h.1
  exact (Nat.log2_lt (by omega)).mpr (length_lt_of_legal h (by omega))

theorem romRow_fits_of_legal (i : Nat) : (romRow c i).1 < 2 ^ c.nw ∧ (romRow c i).2 < 2 ^ c.cw :=
  ⟨(bitField_lt _ _ _).trans_le (Nat.pow_le_pow_right (by decide) (pw_le_of_legal h)),
    (bitField_lt _ _ _).trans_le (Nat.pow_le_pow_right (by decide) (lwr_le_of_legal h))⟩

/-- The Encoder's length and exponent fit LEN and AUX (R101). -/
theorem encoder_fits_of_legal {n : Nat} (hn : n ≠ 0) (hw : n < 2 ^ c.nw) :
    (encoder n).length < 2 ^ c.cw ∧ (encoder n).exponent < 2 ^ c.cw := by
  have hlen : 2 * exponent n + 1 < 2 ^ c.cw := length_lt_of_legal h (exponent_lt hn hw)
  exact ⟨hlen, show exponent n < 2 ^ c.cw by omega⟩

end Widths

/-! ## Legal states, the held response left aside -/

/-- The part of `State.Inv` that does not speak of the held response. -/
structure State.DataOk (s : State) : Prop where
  legal : s.cfg.Legal
  cursors : s.CursorsOk
  canonical : s.buf.wf = true
  within : s.buf.within s.cfg.cap = true
  decoder : s.DecoderOk

theorem State.inv_iff (s : State) : s.Inv ↔ s.DataOk ∧ s.ResponseOk :=
  ⟨fun ⟨hl, hc, hw, hb, hd, hr⟩ => ⟨⟨hl, hc, hw, hb, hd⟩, hr⟩,
    fun ⟨⟨hl, hc, hw, hb, hd⟩, hr⟩ => ⟨hl, hc, hw, hb, hd, hr⟩⟩

section DataOk
variable {s : State} (h : s.DataOk)
include h

/-- A state that answers is legal where the response fits (R66). -/
theorem State.DataOk.answered_inv {r : Response} (hr : r.Fits s.cfg) : (s.answered r).Inv := by
  refine (State.inv_iff _).mpr ⟨⟨h.legal, h.cursors, h.canonical, h.within, h.decoder⟩, ?_⟩
  rintro _ ⟨⟩
  exact hr

theorem State.DataOk.extended {bits : Bits} (hfit : s.wlen + bits.length ≤ s.cfg.cap) :
    (s.extended bits).DataOk where
  legal := h.legal
  cursors := ⟨Nat.le_add_right_of_le h.cursors.1, hfit⟩
  canonical := Memory.wf_setBits _ _ _ h.canonical
  within := Memory.within_setBits _ _ _ h.within hfit
  decoder := h.decoder

theorem State.DataOk.movedTo {p : Nat} (hp : p ≤ s.wlen) : (s.movedTo p).DataOk :=
  ⟨h.legal, ⟨hp, h.cursors.2⟩, h.canonical, h.within, h.decoder⟩

theorem State.DataOk.cleared : s.cleared.DataOk :=
  ⟨h.legal, ⟨Nat.le_refl 0, Nat.zero_le _⟩, h.canonical, h.within, h.decoder⟩

theorem State.DataOk.decoderReleased : s.decoderReleased.DataOk where
  legal := h.legal
  cursors := h.cursors
  canonical := h.canonical
  within := h.within
  decoder := ⟨Nat.mod_lt _ (Nat.two_pow_pos _), Nat.mod_lt _ (Nat.two_pow_pos _), Nat.mod_lt _ (Nat.two_pow_pos _),
    Nat.mod_lt _ (Nat.two_pow_pos _)⟩

theorem State.DataOk.wlen_lt : s.wlen < 2 ^ s.cfg.cw := Nat.lt_of_le_of_lt h.cursors.2 (cap_lt_of_legal h.legal)

theorem State.DataOk.rpos_lt : s.rpos < 2 ^ s.cfg.cw := Nat.lt_of_le_of_lt h.cursors.1 h.wlen_lt

theorem State.DataOk.ceil8_wlen_lt : ceil8 s.wlen < 2 ^ s.cfg.cw := by
  have := h.wlen_lt
  rw [ceil8, Nat.shiftRight_eq_div_pow]
  omega

theorem State.DataOk.atEndBit_lt : s.atEndBit < 2 ^ s.cfg.cw :=
  Nat.lt_of_le_of_lt s.atEndBit_le (one_lt_of_legal h.legal)

end DataOk

/-! ## Completion (R16, R234) -/

/-- The command answers: a next state that holds a response and is legal. -/
def Completes (o : Host.Outcome State Fault Refusal) : Prop :=
  ∃ t r, o = .next t ∧ t.response = some r ∧ t.Inv

section Completes
variable {s : State} (h : s.DataOk)
include h

theorem completes_respond {st : Status} {v l a : Nat} (hst : st ≠ .invalidTableRange) (hv : v < 2 ^ s.cfg.nw)
    (hl : l < 2 ^ s.cfg.cw) (ha : a < 2 ^ s.cfg.cw) : Completes (s.respond st v l a) :=
  ⟨_, _, rfl, rfl, h.answered_inv ⟨hv, hl, ha, hst⟩⟩

theorem completes_raise {st : Status} {l a : Nat} (hst : st ≠ .invalidTableRange) (hl : l < 2 ^ s.cfg.cw)
    (ha : a < 2 ^ s.cfg.cw) : Completes (s.raise st l a) :=
  completes_respond h hst (Nat.two_pow_pos _) hl ha

/-- An error without LEN and AUX. -/
theorem completes_raise_zero {st : Status} (hst : st ≠ .invalidTableRange) : Completes (s.raise st 0 0) :=
  completes_raise h hst (Nat.two_pow_pos _) (Nat.two_pow_pos _)

/-- An Append inside a command completes where the number of bits fits LEN and the answer to the extended
stream completes. -/
theorem completes_append {bits : Bits} {f : State → Host.Outcome State Fault Refusal}
    (hlen : bits.length < 2 ^ s.cfg.cw) (hf : (s.extended bits).DataOk → Completes (f (s.extended bits))) :
    Completes (match s.append bits with
      | .error e => s.raise e.status e.len e.aux
      | .ok t => f t) := by
  rcases s.append_cases bits with ⟨-, ha⟩ | ⟨hfit, ha⟩
  · rw [ha]
    exact completes_raise h (st := .capacityError) (by decide) hlen
      (Nat.lt_of_le_of_lt (Nat.sub_le _ _) (cap_lt_of_legal h.legal))
  · rw [ha]
    exact hf (h.extended hfit)

theorem completes_query (arg cnt : Nat) : Completes (execQuery arg cnt s) :=
  completes_respond h (by decide) (zext_lt _ _) h.wlen_lt h.rpos_lt

theorem completes_encode {arg : Nat} (cnt : Nat) (ha : arg < 2 ^ s.cfg.nw) : Completes (execEncode arg cnt s) := by
  unfold execEncode
  split
  · exact completes_raise_zero h (by decide)
  · next hn =>
    obtain ⟨hl, he⟩ := encoder_fits_of_legal h.legal hn ha
    exact completes_respond h (by decide) ha hl he

theorem completes_encodeAppend {arg : Nat} (cnt : Nat) (ha : arg < 2 ^ s.cfg.nw) :
    Completes (execEncodeAppend arg cnt s) := by
  unfold execEncodeAppend
  split
  · exact completes_raise_zero h (by decide)
  · next hn =>
    obtain ⟨hl, he⟩ := encoder_fits_of_legal h.legal hn ha
    exact completes_append h (by rwa [length_bitsOf]) fun ht => completes_respond ht (by decide) ha hl he

theorem completes_appendBits (arg : Nat) {cnt : Nat} (hc : cnt < 2 ^ s.cfg.cw) :
    Completes (execAppendBits arg cnt s) :=
  completes_append h (by rwa [length_bitsOf]) fun ht =>
    completes_respond ht (by decide) (Nat.two_pow_pos _) ht.wlen_lt (Nat.two_pow_pos _)

theorem completes_appendBit (arg cnt : Nat) : Completes (execAppendBit arg cnt s) :=
  completes_append h (one_lt_of_legal h.legal) fun ht =>
    completes_respond ht (by decide) (Nat.two_pow_pos _) ht.wlen_lt (Nat.two_pow_pos _)

theorem completes_readBit (arg cnt : Nat) : Completes (execReadBit arg cnt s) := by
  obtain ⟨hr, hw⟩ := h.cursors
  unfold execReadBit
  split
  · exact completes_raise_zero h (by decide)
  · have ht : (s.movedTo (s.rpos + 1)).DataOk := h.movedTo (by omega)
    rw [State.readBits_of_le (by omega)]
    exact completes_respond ht (by decide) (zext_lt _ _) ht.rpos_lt ht.atEndBit_lt

theorem completes_readByte (arg cnt : Nat) : Completes (execReadByte arg cnt s) := by
  obtain ⟨-, hw⟩ := h.cursors
  unfold execReadByte
  split
  · exact completes_raise h (by decide) h.ceil8_wlen_lt (Nat.two_pow_pos _)
  · rw [State.readBits_of_le (by omega)]
    exact completes_respond h (by decide) (zext_lt _ _) h.ceil8_wlen_lt (Nat.two_pow_pos _)

/-- DECODE consumes no more than the unread stream, so the cursor stays inside the stream. -/
theorem completes_decode (arg cnt : Nat) : Completes (execDecode arg cnt s) := by
  obtain ⟨hr, hw⟩ := h.cursors
  obtain ⟨hnw, -⟩ := h.legal
  have hd := h.decoderReleased
  unfold execDecode
  rw [State.readBits_of_le (by omega)]
  simp only
  rcases runDecoder_cases s.cfg.nw s.rpos (s.buf.bits s.rpos (s.wlen - s.rpos)) hnw with
    ho | ⟨phase, hphase, ht⟩ | ⟨e, r, he, hrem, hm, hdone⟩
  · rw [ho]
    exact completes_raise hd (by decide) (nw_lt_of_legal h.legal) (Nat.two_pow_pos _)
  · rw [ht, Memory.length_bits]
    exact completes_raise hd (by decide) (Nat.lt_of_le_of_lt (Nat.sub_le _ _) h.wlen_lt)
      (Nat.lt_of_le_of_lt hphase (one_lt_of_legal h.legal))
  · rw [Memory.length_bits] at hm
    rw [hdone]
    have hlen := length_lt_of_legal h.legal he
    have hval : 2 ^ e + r < 2 ^ s.cfg.nw := by
      calc 2 ^ e + r < 2 ^ (e + 1) := by omega
        _ ≤ 2 ^ s.cfg.nw := Nat.pow_le_pow_right (by decide) he
    have hmoved : s.rpos + (2 * e + 1) ≤ s.decoderReleased.wlen := by
      rw [State.decoderReleased_wlen]
      omega
    exact completes_respond (hd.movedTo hmoved) (by decide) hval hlen
      (Nat.lt_of_le_of_lt (Nat.div_le_self _ _) (Nat.lt_of_le_of_lt (Nat.sub_le _ _) hlen))

theorem completes_tableLookup (arg cnt : Nat) : Completes (execTableLookup arg cnt s) := by
  obtain ⟨hv, hl⟩ := romRow_fits_of_legal h.legal (arg - 1)
  unfold execTableLookup
  split
  · exact completes_raise_zero h (by decide)
  · split
    · exact completes_raise_zero h (by decide)
    · exact completes_respond h (by decide) hv hl (by omega)

theorem completes_tableAppend (arg cnt : Nat) : Completes (execTableAppend arg cnt s) := by
  obtain ⟨hv, hl⟩ := romRow_fits_of_legal h.legal (arg - 1)
  unfold execTableAppend
  split
  · exact completes_raise_zero h (by decide)
  · split
    · exact completes_raise_zero h (by decide)
    · exact completes_append h (by rwa [length_bitsOf]) fun ht =>
        completes_respond ht (by decide) hv hl (show _ < 2 ^ s.cfg.cw by omega)

theorem completes_streamClear (arg cnt : Nat) : Completes (execStreamClear arg cnt s) :=
  completes_respond h.cleared (by decide) (Nat.two_pow_pos _) (Nat.two_pow_pos _) (Nat.two_pow_pos _)

theorem completes_streamSeek (arg cnt : Nat) : Completes (execStreamSeek arg cnt s) := by
  unfold execStreamSeek
  split
  · exact completes_raise h (by decide) h.wlen_lt (Nat.two_pow_pos _)
  · have ht : (s.movedTo cnt).DataOk := h.movedTo (by omega)
    exact completes_respond ht (by decide) (Nat.two_pow_pos _) ht.wlen_lt ht.rpos_lt

theorem completes_illegal : Completes s.illegal := completes_raise_zero h (by decide)

/-- Every command with operands that fit completes, whatever response the state held before. -/
theorem exec_completes {i : Instr} (hi : WellFormed s.cfg i) : Completes (exec i s) := by
  obtain ⟨ha, hc⟩ := hi
  cases i with
  | query arg cnt => exact completes_query h arg cnt
  | encode arg cnt => exact completes_encode h cnt ha
  | encodeAppend arg cnt => exact completes_encodeAppend h cnt ha
  | decode arg cnt => exact completes_decode h arg cnt
  | appendBit arg cnt => exact completes_appendBit h arg cnt
  | appendBits arg cnt => exact completes_appendBits h arg hc
  | readBit arg cnt => exact completes_readBit h arg cnt
  | tableLookup arg cnt => exact completes_tableLookup h arg cnt
  | tableAppend arg cnt => exact completes_tableAppend h arg cnt
  | streamClear arg cnt => exact completes_streamClear h arg cnt
  | streamSeek arg cnt => exact completes_streamSeek h arg cnt
  | readByte arg cnt => exact completes_readByte h arg cnt
  | reservedC arg cnt => exact completes_illegal h
  | reservedD arg cnt => exact completes_illegal h
  | reservedE arg cnt => exact completes_illegal h
  | reservedF arg cnt => exact completes_illegal h

end Completes

/-- Settles O44, one command at a time. -/
theorem everyCommandCompletes : Obligations.EveryCommandCompletes := by
  intro i s hs hi
  obtain ⟨hd, -⟩ := (State.inv_iff s).mp hs
  exact exec_completes hd hi

end Sys2Proof.Machine

/-! PROOFS of the family 10_state. What a command and an edge can write, which states they leave legal, and what of
BUF is observable. -/

namespace Sys2Proof.Machine

/-! ## The reset state (10_state.md R30) -/

/-- A legal configuration's reset state is legal. -/
theorem State.resetFor_inv {cfg : Config} (h : cfg.Legal) : (State.resetFor cfg).Inv := by
  have hcw := Nat.two_pow_pos cfg.cw
  refine ⟨h, ⟨Nat.le_refl 0, Nat.zero_le _⟩, rfl, rfl, ⟨hcw, hcw, Nat.two_pow_pos cfg.nw, hcw⟩, ?_⟩
  rintro _ ⟨⟩

/-- Settles O42. -/
theorem resetIsLegal : Obligations.ResetIsLegal := State.resetFor_inv (by decide)

/-- ROM row i is the pair the Encoder gives for i + 1: both its fields are wide enough (44_lookup_table.md R171). -/
theorem romRow_eq {cfg : Config} {i : Nat} (h : i < cfg.nmax) : romRow cfg i = (i + 1, codeLength (i + 1)) := by
  have hpacked : i + 1 < 2 ^ pw cfg := Nat.lt_of_le_of_lt h Nat.lt_log2_self
  have hlen : codeLength (i + 1) < 2 ^ lwr cfg := by
    have he := exponent_lt (n := i + 1) (by omega) hpacked
    calc codeLength (i + 1) ≤ 2 * (pw cfg - 1) + 1 := by unfold codeLength; omega
      _ < 2 ^ lwr cfg := Nat.lt_log2_self
  have hword : romWord cfg i = i + 1 + codeLength (i + 1) * 2 ^ pw cfg :=
    (shiftLeft_or_eq _ _ _ hpacked).trans (Nat.add_comm _ _)
  rw [romRow, hword, bitField, bitField, Nat.shiftRight_zero, Nat.shiftRight_eq_div_pow,
    Nat.add_mul_mod_self_right, Nat.mod_eq_of_lt hpacked, Nat.add_mul_div_right _ _ (Nat.two_pow_pos _),
    Nat.div_eq_of_lt hpacked, Nat.zero_add, Nat.mod_eq_of_lt hlen]

/-- Settles O41. -/
theorem resetLeavesAnEmptyStream : Obligations.ResetLeavesAnEmptyStream := by
  refine ⟨rfl, ?_⟩
  rintro cfg _ hnw rfl
  refine ⟨rfl, rfl, rfl, rfl, rfl, rfl, rfl, rfl, fun i hi => romRow_eq hi, _, rfl, ?_⟩
  have hone : zext cfg 1 = 1 := zext_of_lt (Nat.one_lt_two_pow (by omega))
  exact congrArg (fun v => some (⟨.ok, v, 0, 0⟩ : Response)) hone

/-! ## What each command can write (10_state.md R32) -/

/-- ENCODE_APPEND, APPEND_BIT, APPEND_BITS or TABLE_APPEND. -/
def IsAppend (i : Instr) : Prop :=
  i = .encodeAppend i.arg i.cnt ∨ i = .appendBit i.arg i.cnt ∨ i = .appendBits i.arg i.cnt ∨
    i = .tableAppend i.arg i.cnt

section Writes
variable {s w : State} {i : Instr} {r : Response} (h : Leaves s i r w)
include h

theorem Leaves.cfg : w.cfg = s.cfg := by cases h <;> rfl

theorem Leaves.pins : w.pins = s.pins := by cases h <;> rfl

theorem Leaves.decoder : w.decoder = s.decoder ∨ i = .decode i.arg i.cnt := by
  cases h with
  | undecoded _ _ hi => exact .inr hi
  | decoded _ _ _ hi => exact .inr hi
  | _ => exact .inl rfl

theorem Leaves.buf : w.buf = s.buf ∨ IsAppend i := by
  cases h with
  | appended _ _ _ hi => exact .inr hi
  | _ => exact .inl rfl

theorem Leaves.wlen : w.wlen = s.wlen ∨ (s.wlen ≤ w.wlen ∧ IsAppend i) ∨
    (w.wlen = 0 ∧ i = .streamClear i.arg i.cnt) := by
  cases h with
  | appended _ _ _ hi => exact .inr (.inl ⟨Nat.le_add_right _ _, hi⟩)
  | emptied _ hi => exact .inr (.inr ⟨rfl, hi⟩)
  | _ => exact .inl rfl

theorem Leaves.rpos : w.rpos = s.rpos ∨
    (s.rpos < w.rpos ∧ (i = .readBit i.arg i.cnt ∨ i = .decode i.arg i.cnt)) ∨
    i = .streamSeek i.arg i.cnt ∨ (i = .streamClear i.arg i.cnt ∧ w.rpos = 0) := by
  cases h with
  | read _ hi => exact .inr (.inl ⟨Nat.lt_succ_self _, .inl hi⟩)
  | decoded _ _ hm hi => exact .inr (.inl ⟨Nat.lt_add_of_pos_right hm, .inr hi⟩)
  | sought _ _ hi => exact .inr (.inr (.inl hi))
  | emptied _ hi => exact .inr (.inr (.inr ⟨hi, rfl⟩))
  | _ => exact .inl rfl

end Writes

/-- Only the eight opcodes that R32 gives a write can write anything. -/
theorem Leaves.eq_or_writes {s w : State} {i : Instr} {r : Response} (h : Leaves s i r w) :
    w = s ∨ opcode i ∈ [0x2, 0x3, 0x4, 0x5, 0x6, 0x8, 0x9, 0xA] := by
  cases h with
  | nothing => exact .inl rfl
  | appended _ _ _ hi => rcases hi with hi | hi | hi | hi <;> rw [hi] <;> simp [opcode]
  | read _ hi => rw [hi]; simp [opcode]
  | sought _ _ hi => rw [hi]; simp [opcode]
  | emptied _ hi => rw [hi]; simp [opcode]
  | undecoded _ _ hi => rw [hi]; simp [opcode]
  | decoded _ _ _ hi => rw [hi]; simp [opcode]

/-- Settles O37. -/
theorem readOnlyCommandsWriteNothing : Obligations.ReadOnlyCommandsWriteNothing := by
  intro a c s t i hi h
  obtain ⟨r, w, rfl, -, hl⟩ := exec_next h
  have hop : opcode i ∉ [0x2, 0x3, 0x4, 0x5, 0x6, 0x8, 0x9, 0xA] := by
    revert i
    simp [opcode]
  obtain rfl : w = s := hl.eq_or_writes.resolve_right hop
  exact ⟨rfl, rfl, rfl, rfl, rfl, fun _ => rfl⟩

/-- Settles O39. -/
theorem cursorCommandsKeepTheBuffer : Obligations.CursorCommandsKeepTheBuffer := by
  intro a c s t i hi h
  obtain ⟨r, w, rfl, -, hl⟩ := exec_next h
  have hfields : (i.arg = a ∧ i.cnt = c) ∧ ¬IsAppend i := by
    clear h hl
    revert i
    simp [IsAppend, Instr.arg, Instr.cnt]
  obtain ⟨⟨rfl, rfl⟩, happ⟩ := hfields
  have hbuf : w.buf = s.buf := hl.buf.resolve_right happ
  refine ⟨hl.cfg, hl.pins, fun hclear => ?_, fun hdec => hl.decoder.resolve_right hdec, fun p => ?_⟩
  · exact hl.wlen.resolve_right fun hw => hw.elim (fun ha => happ ha.2) (fun hc => hclear hc.2)
  · rw [State.answered_buf, hbuf]

/-- Settles O40. -/
theorem onlyNamedCommandsWriteWlenAndRpos : Obligations.OnlyNamedCommandsWriteWlenAndRpos := by
  intro i s t h
  obtain ⟨r, w, rfl, -, hl⟩ := exec_next h
  refine ⟨fun hgrows => ?_, fun hfalls => ?_, fun hmoves => hl.rpos.resolve_left hmoves⟩
  · simp only [State.answered_wlen] at hgrows
    rcases hl.wlen with hw | ⟨-, happ⟩ | ⟨hw, -⟩
    · omega
    · simpa [IsAppend] using happ
    · omega
  · simp only [State.answered_wlen] at hfalls ⊢
    rcases hl.wlen with hw | ⟨hw, -⟩ | ⟨hw, hi⟩
    · omega
    · omega
    · exact ⟨hi, hw⟩

/-! ## What an append writes (43_bitstream.md R140) -/

/-- The state after a command that appends k bits, or that answers an error and appends none. -/
def AppendsBits (k : Nat) (s t : State) : Prop :=
  ∃ r, t = s.answered r ∨ ∃ bits : Bits, bits.length = k ∧ t = (s.extended bits).answered r

section AppendsBits
variable {s t : State}

theorem appendsBits_of_append {bits : Bits} {f : State → Response}
    (h : (match s.append bits with
      | .error e => s.raise e.status e.len e.aux
      | .ok u => .next (u.answered (f u))) = .next t) : AppendsBits bits.length s t := by
  rcases s.append_cases bits with ⟨-, ha⟩ | ⟨-, ha⟩
  · rw [ha] at h
    cases h
    exact ⟨_, .inl rfl⟩
  · rw [ha] at h
    cases h
    exact ⟨_, .inr ⟨bits, rfl, rfl⟩⟩

theorem appendsBits_of_raise {k : Nat} {st : Status} {l a : Nat} (h : s.raise st l a = .next t) :
    AppendsBits k s t := by
  cases h
  exact ⟨_, .inl rfl⟩

theorem appendsBits_encodeAppend (arg cnt : Nat) (h : execEncodeAppend arg cnt s = .next t) :
    AppendsBits (codeLength arg) s t := by
  unfold execEncodeAppend at h
  split at h
  · exact appendsBits_of_raise h
  · rw [← length_bitsOf (codeLength arg) arg]
    exact appendsBits_of_append (f := fun _ => ⟨.ok, arg, codeLength arg, exponent arg⟩) h

theorem appendsBits_appendBit (arg cnt : Nat) (h : execAppendBit arg cnt s = .next t) : AppendsBits 1 s t :=
  appendsBits_of_append (bits := [arg.testBit 0]) (f := fun u => ⟨.ok, 0, u.wlen, 0⟩) h

theorem appendsBits_appendBits (arg cnt : Nat) (h : execAppendBits arg cnt s = .next t) : AppendsBits cnt s t := by
  rw [← length_bitsOf cnt arg]
  exact appendsBits_of_append (f := fun u => ⟨.ok, 0, u.wlen, 0⟩) h

theorem appendsBits_tableAppend (arg cnt : Nat) (h : execTableAppend arg cnt s = .next t) :
    AppendsBits (romRow s.cfg (arg - 1)).2 s t := by
  unfold execTableAppend at h
  split at h
  · exact appendsBits_of_raise h
  · split at h
    · exact appendsBits_of_raise h
    · rw [← length_bitsOf (romRow s.cfg (arg - 1)).2 (romRow s.cfg (arg - 1)).1]
      exact appendsBits_of_append (f := fun _ => ⟨.ok, _, _, _⟩) h

/-- The frame of an append: WLEN and the k positions from the old WLEN on. -/
theorem AppendsBits.frame {k : Nat} (h : AppendsBits k s t) (hwf : s.buf.wf = true) :
    t.cfg = s.cfg ∧ t.rpos = s.rpos ∧ t.decoder = s.decoder ∧ t.pins = s.pins ∧
      (t.wlen = s.wlen ∨ t.wlen = s.wlen + k) ∧
      ∀ p, p < s.wlen ∨ s.wlen + k ≤ p → t.buf.bit p = s.buf.bit p := by
  obtain ⟨r, rfl | ⟨bits, rfl, rfl⟩⟩ := h
  · exact ⟨rfl, rfl, rfl, rfl, .inl rfl, fun _ _ => rfl⟩
  · exact ⟨rfl, rfl, rfl, rfl, .inr rfl, fun p hp => s.extended_bit_outside bits hwf p hp⟩

end AppendsBits

/-- Settles O38, one append command at a time. -/
theorem appendsWriteOnlyAtTheEnd : Obligations.AppendsWriteOnlyAtTheEnd := by
  intro a c s t hwf ik hik h
  simp only [List.mem_cons, List.not_mem_nil, or_false] at hik
  rcases hik with rfl | rfl | rfl | rfl
  · exact (appendsBits_encodeAppend a c h).frame hwf
  · exact (appendsBits_appendBit a c h).frame hwf
  · exact (appendsBits_appendBits a c h).frame hwf
  · exact (appendsBits_tableAppend a c h).frame hwf

/-! ## Every edge keeps states legal (10_state.md R25) -/

/-- Every word is the word of a command whose operands fit (30_encoding.md R70). -/
theorem decode_wellFormed (cfg : Config) (w : Nat) : WellFormed cfg (decode cfg w) := by
  unfold decode
  exact ⟨(fromOpcode_arg _ _ _).trans_lt (bitField_lt _ _ _), (fromOpcode_cnt _ _ _).trans_lt (bitField_lt _ _ _)⟩

section Edges
variable {s : State}

theorem State.DataOk.timedFor (h : s.DataOk) (i : Instr) : (s.timedFor i).DataOk :=
  ⟨h.legal, h.cursors, h.canonical, h.within, h.decoder⟩

theorem State.sampled_inv (h : s.Inv) : s.sampled.Inv := h

theorem State.resetEdge_inv (h : s.cfg.Legal) : s.resetEdge.Inv := State.resetFor_inv h

/-- The ports may go on to any state that holds no response but the one held before. -/
theorem State.withPort_inv (h : s.Inv) {p : Port} (hp : ∀ r ∈ (s.withPort p).response, r ∈ s.response) :
    (s.withPort p).Inv := by
  obtain ⟨hd, hr⟩ := (State.inv_iff s).mp h
  exact (State.inv_iff _).mpr ⟨⟨hd.legal, hd.cursors, hd.canonical, hd.within, hd.decoder⟩,
    fun r hm => hr r (hp r hm)⟩

/-- What makes an edge lead to a legal state: it leaves one, or it accepts a well-formed command in legal data. -/
def Edge.Legal : Edge → Prop
  | .accept i t => t.DataOk ∧ WellFormed t.cfg i
  | .quiet t => t.Inv
  | .noRule _ => True

theorem State.edge_legal (h : s.Inv) : s.edge.Legal := by
  have hs : s.sampled.Inv := State.sampled_inv h
  obtain ⟨hd, -⟩ := (State.inv_iff _).mp hs
  rcases s.edge_cases with ⟨-, he⟩ | ⟨-, ⟨-, he⟩ | ⟨-, -, he⟩ | ⟨-, -, he⟩ | ⟨r, n, hp, -, he⟩ |
    ⟨r, n, hp, -, he⟩ | ⟨r, -, ⟨-, he⟩ | ⟨-, he⟩⟩⟩ <;> rw [he]
  · exact State.resetEdge_inv hd.legal
  · exact trivial
  · exact ⟨hd.timedFor _, decode_wellFormed _ _⟩
  · exact hs
  · exact State.withPort_inv hs (by simp [State.response, hp])
  · exact State.withPort_inv hs (by simp [State.response, hp])
  · exact State.withPort_inv hs (by simp [State.response])
  · exact hs

end Edges

/-- Settles O43: an accepted command completes in a legal state, and every other edge changes the ports only. -/
theorem stepKeepsStatesLegal : Obligations.StepKeepsStatesLegal := by
  intro s t hs h
  have hlegal := State.edge_legal hs
  cases he : s.edge with
  | accept i u =>
    rw [he] at hlegal
    obtain ⟨hd, hi⟩ := hlegal
    obtain ⟨v, _, hv, -, hinv⟩ := exec_completes hd hi
    rw [step_of_accept he, hv] at h
    cases h
    exact hinv
  | quiet u =>
    rw [he] at hlegal
    rw [step_of_quiet he] at h
    cases h
    exact hlegal
  | noRule r =>
    rw [step_of_noRule he] at h
    cases h

/-! ## The bits past the end are unobservable (10_state.md R21) -/

/-- The same parameters, stream and read cursor: all of a state that a host can see through commands. -/
structure State.SameView (s s' : State) : Prop where
  cfg : s'.cfg = s.cfg
  stream : s'.stream = s.stream
  rpos : s'.rpos = s.rpos

/-- Two commands answer the same response, on states with the same view. -/
def AnswerAlike (o o' : Host.Outcome State Fault Refusal) : Prop :=
  ∃ (r : Response) (w w' : State), o = .next (w.answered r) ∧ o' = .next (w'.answered r) ∧ w.SameView w'

theorem AnswerAlike.ite {p : Prop} [Decidable p] {a b a' b' : Host.Outcome State Fault Refusal}
    (ht : p → AnswerAlike a a') (hf : ¬p → AnswerAlike b b') :
    AnswerAlike (if p then a else b) (if p then a' else b') := by
  split
  · exact ht ‹_›
  · exact hf ‹_›

section SameView
variable {s s' : State} (h : s.SameView s')
include h

theorem State.SameView.wlen : s'.wlen = s.wlen := by
  rw [← s'.length_stream, ← s.length_stream, h.stream]

theorem State.SameView.atEndBit : s'.atEndBit = s.atEndBit := by
  rw [State.atEndBit, State.atEndBit, State.atEnd, State.atEnd, h.rpos, h.wlen]

theorem State.SameView.movedTo (p : Nat) : (s.movedTo p).SameView (s'.movedTo p) := ⟨h.cfg, h.stream, rfl⟩

theorem State.SameView.cleared : s.cleared.SameView s'.cleared := ⟨h.cfg, rfl, rfl⟩

theorem State.SameView.decoderReleased : s.decoderReleased.SameView s'.decoderReleased :=
  ⟨h.cfg, h.stream, h.rpos⟩

theorem State.SameView.extended (bits : Bits) (hwf : s.buf.wf = true) (hwf' : s'.buf.wf = true) :
    (s.extended bits).SameView (s'.extended bits) :=
  ⟨h.cfg, by rw [State.extended_stream _ _ hwf, State.extended_stream _ _ hwf', h.stream], h.rpos⟩

/-- A read inside the stream gives both the same bits. -/
theorem State.SameView.readBits {p k : Nat} (hk : p + k ≤ s.wlen) : s'.readBits p k = s.readBits p k := by
  have hbit : ∀ q < s.wlen, s'.buf.bit q = s.buf.bit q := fun q hq => by
    have hq' : s'.stream[q]? = s.stream[q]? := by rw [h.stream]
    rw [State.stream_getElem?, State.stream_getElem?, h.wlen, if_pos hq, if_pos hq] at hq'
    exact Option.some.inj hq'
  unfold State.readBits
  rw [h.cfg, Memory.bits_congr fun i hi => hbit (p + i) (by omega)]

theorem State.SameView.respond {st : Status} {v v' l l' a a' : Nat} (hv : v' = v) (hl : l' = l) (ha : a' = a) :
    AnswerAlike (s.respond st v l a) (s'.respond st v' l' a') := by
  subst hv hl ha
  exact ⟨_, _, _, rfl, rfl, h⟩

theorem State.SameView.raise {st : Status} {l l' a a' : Nat} (hl : l' = l) (ha : a' = a) :
    AnswerAlike (s.raise st l a) (s'.raise st l' a') :=
  h.respond rfl hl ha

/-- An Append inside a command: both fit or both answer the same CAPACITY_ERROR. -/
theorem State.SameView.append (bits : Bits) (hwf : s.buf.wf = true) (hwf' : s'.buf.wf = true)
    {f : State → Host.Outcome State Fault Refusal} (hf : ∀ {t t'}, t.SameView t' → AnswerAlike (f t) (f t')) :
    AnswerAlike
      (match s.append bits with
        | .error e => s.raise e.status e.len e.aux
        | .ok t => f t)
      (match s'.append bits with
        | .error e => s'.raise e.status e.len e.aux
        | .ok t => f t) := by
  unfold State.append
  rw [h.cfg, h.wlen]
  by_cases hc : s.cfg.cap < s.wlen + bits.length
  · simp only [if_pos hc]
    exact h.raise rfl rfl
  · simp only [if_neg hc]
    exact hf (h.extended bits hwf hwf')

end SameView

section AnswerAlike
variable {s s' : State} (h : s.SameView s') (hs : s.DataOk) (hs' : s'.DataOk)
include h

theorem answerAlike_encode (arg cnt : Nat) : AnswerAlike (execEncode arg cnt s) (execEncode arg cnt s') :=
  .ite (fun _ => h.raise rfl rfl) (fun _ => h.respond rfl rfl rfl)

theorem answerAlike_tableLookup (arg cnt : Nat) :
    AnswerAlike (execTableLookup arg cnt s) (execTableLookup arg cnt s') := by
  unfold execTableLookup
  rw [h.cfg]
  exact .ite (fun _ => h.raise rfl rfl) fun _ => .ite (fun _ => h.raise rfl rfl) fun _ => h.respond rfl rfl rfl

theorem answerAlike_streamSeek (arg cnt : Nat) :
    AnswerAlike (execStreamSeek arg cnt s) (execStreamSeek arg cnt s') := by
  unfold execStreamSeek
  rw [h.wlen]
  exact .ite (fun _ => h.raise rfl rfl) fun _ => (h.movedTo cnt).respond rfl h.wlen rfl

include hs

theorem answerAlike_readBit (arg cnt : Nat) : AnswerAlike (execReadBit arg cnt s) (execReadBit arg cnt s') := by
  obtain ⟨hr, hw⟩ := hs.cursors
  unfold execReadBit
  rw [h.rpos, h.wlen, h.cfg]
  refine .ite (fun _ => h.raise rfl rfl) fun hne => ?_
  rw [h.readBits (by omega), State.readBits_of_le (by omega)]
  have ht := h.movedTo (s.rpos + 1)
  exact ht.respond rfl rfl ht.atEndBit

theorem answerAlike_readByte (arg cnt : Nat) : AnswerAlike (execReadByte arg cnt s) (execReadByte arg cnt s') := by
  obtain ⟨-, hw⟩ := hs.cursors
  unfold execReadByte
  rw [h.wlen, h.cfg]
  refine .ite (fun _ => h.raise rfl rfl) fun hlt => ?_
  rw [h.readBits (by omega), State.readBits_of_le (by omega)]
  exact h.respond rfl rfl rfl

/-- The Decoder's machine reads the unread stream and nothing else. -/
theorem answerAlike_decode (arg cnt : Nat) : AnswerAlike (execDecode arg cnt s) (execDecode arg cnt s') := by
  obtain ⟨hr, hw⟩ := hs.cursors
  have hd := h.decoderReleased
  unfold execDecode
  rw [h.rpos, h.wlen, h.cfg, h.readBits (by omega), State.readBits_of_le (by omega)]
  simp only
  split
  · exact hd.raise rfl rfl
  · exact hd.raise rfl rfl
  · exact (hd.movedTo _).respond rfl rfl rfl

include hs'

theorem answerAlike_encodeAppend (arg cnt : Nat) :
    AnswerAlike (execEncodeAppend arg cnt s) (execEncodeAppend arg cnt s') :=
  .ite (fun _ => h.raise rfl rfl) fun _ =>
    h.append _ hs.canonical hs'.canonical fun ht => ht.respond rfl rfl rfl

theorem answerAlike_appendBit (arg cnt : Nat) : AnswerAlike (execAppendBit arg cnt s) (execAppendBit arg cnt s') :=
  h.append _ hs.canonical hs'.canonical fun ht => ht.respond rfl ht.wlen rfl

theorem answerAlike_appendBits (arg cnt : Nat) :
    AnswerAlike (execAppendBits arg cnt s) (execAppendBits arg cnt s') :=
  h.append _ hs.canonical hs'.canonical fun ht => ht.respond rfl ht.wlen rfl

theorem answerAlike_tableAppend (arg cnt : Nat) :
    AnswerAlike (execTableAppend arg cnt s) (execTableAppend arg cnt s') := by
  unfold execTableAppend
  rw [h.cfg]
  exact .ite (fun _ => h.raise rfl rfl) fun _ => .ite (fun _ => h.raise rfl rfl) fun _ =>
    h.append _ hs.canonical hs'.canonical fun ht => ht.respond rfl rfl rfl

/-- Every command answers alike in two legal states with the same view. -/
theorem exec_answerAlike (i : Instr) : AnswerAlike (exec i s) (exec i s') := by
  cases i with
  | query arg cnt => exact h.respond (by rw [h.cfg, h.atEndBit]) h.wlen h.rpos
  | encode arg cnt => exact answerAlike_encode h arg cnt
  | encodeAppend arg cnt => exact answerAlike_encodeAppend h hs hs' arg cnt
  | decode arg cnt => exact answerAlike_decode h hs arg cnt
  | appendBit arg cnt => exact answerAlike_appendBit h hs hs' arg cnt
  | appendBits arg cnt => exact answerAlike_appendBits h hs hs' arg cnt
  | readBit arg cnt => exact answerAlike_readBit h hs arg cnt
  | tableLookup arg cnt => exact answerAlike_tableLookup h arg cnt
  | tableAppend arg cnt => exact answerAlike_tableAppend h hs hs' arg cnt
  | streamClear arg cnt => exact h.cleared.respond rfl rfl rfl
  | streamSeek arg cnt => exact answerAlike_streamSeek h arg cnt
  | readByte arg cnt => exact answerAlike_readByte h hs arg cnt
  | reservedC arg cnt => exact h.raise rfl rfl
  | reservedD arg cnt => exact h.raise rfl rfl
  | reservedE arg cnt => exact h.raise rfl rfl
  | reservedF arg cnt => exact h.raise rfl rfl

end AnswerAlike

/-- Settles O46, one command at a time. -/
theorem bitsPastTheEndAreUnobservable : Obligations.BitsPastTheEndAreUnobservable := by
  intro i s s' t hs hs' hcfg hstream hrpos h
  obtain ⟨hd, -⟩ := (State.inv_iff s).mp hs
  obtain ⟨hd', -⟩ := (State.inv_iff s').mp hs'
  obtain ⟨r, w, w', hw, hw', hview⟩ := exec_answerAlike ⟨hcfg, hstream, hrpos⟩ hd hd' i
  rw [hw] at h
  cases h
  exact ⟨_, hw', rfl, hview.stream, hview.rpos⟩

end Sys2Proof.Machine

/-! PROOFS of the family 20_memory. The ROM's rows are a function of the parameters (R53), so it is enough that no
edge writes the parameters. -/

namespace Sys2Proof.Machine

/-- A step that goes on is a quiet edge or an accepted command. -/
theorem step_next {s t : State} (h : step s = .next t) :
    s.edge = .quiet t ∨ ∃ i u, s.edge = .accept i u ∧ exec i u = .next t := by
  cases he : s.edge with
  | accept i u => exact .inr ⟨i, u, rfl, (step_of_accept he).symm.trans h⟩
  | quiet u =>
    rw [step_of_quiet he] at h
    cases h
    exact .inl rfl
  | noRule r =>
    rw [step_of_noRule he] at h
    cases h

/-- An edge that keeps the parameters: the state it leaves, or accepts a command in, has those of `cfg`. -/
def Edge.Keeps (cfg : Config) : Edge → Prop
  | .accept _ t => t.cfg = cfg
  | .quiet t => t.cfg = cfg
  | .noRule _ => True

/-- No edge writes the parameters, a reset edge neither. -/
theorem State.edge_keeps_cfg (s : State) : s.edge.Keeps s.cfg := by
  rcases s.edge_cases with ⟨-, he⟩ | ⟨-, ⟨-, he⟩ | ⟨-, -, he⟩ | ⟨-, -, he⟩ | ⟨r, n, -, -, he⟩ |
    ⟨r, n, -, -, he⟩ | ⟨r, -, ⟨-, he⟩ | ⟨-, he⟩⟩⟩ <;> rw [he]
  · exact State.resetEdge_cfg _
  · exact trivial
  · exact State.timedFor_cfg _ _
  · exact State.sampled_cfg _
  · exact State.withPort_cfg _ _
  · exact State.withPort_cfg _ _
  · exact State.withPort_cfg _ _
  · exact State.sampled_cfg _

/-- No command writes the parameters. -/
theorem exec_keeps_cfg {i : Instr} {s t : State} (h : exec i s = .next t) : t.cfg = s.cfg := by
  obtain ⟨r, w, rfl, -, hl⟩ := exec_next h
  exact hl.cfg

theorem step_keeps_cfg {s t : State} (h : step s = .next t) : t.cfg = s.cfg := by
  have hs := s.edge_keeps_cfg
  obtain he | ⟨i, u, he, hexec⟩ := step_next h
  · rwa [he] at hs
  · rw [he] at hs
    exact (exec_keeps_cfg hexec).trans hs

/-- Settles O48: a row is read from the parameters alone, and a step keeps them. -/
theorem nothingWritesTheRom : Obligations.NothingWritesTheRom := by
  intro s t h
  have hcfg := step_keeps_cfg h
  exact ⟨hcfg, fun i => congrArg (romRow · i) hcfg⟩

end Sys2Proof.Machine

/-! PROOFS of the family 30_encoding. A command word (R62) and a response word (R66) hold their fields side by side, so
each is a sum from which `bitField` reads the fields back. -/

namespace Sys2Proof.Machine

/-! ## Fields side by side in a word (00_scope.md R12) -/

theorem bitField_eq_div_mod (v lo w : Nat) : bitField v lo w = v / 2 ^ lo % 2 ^ w := by
  rw [bitField, Nat.shiftRight_eq_div_pow]

/-- A field inside the low k bits does not see what stands above them. -/
theorem bitField_sum_low (hi lo : Nat) {k p w : Nat} (h : p + w ≤ k) :
    bitField (hi * 2 ^ k + lo) p w = bitField lo p w := by
  obtain ⟨j, rfl⟩ := Nat.exists_eq_add_of_le h
  have hsplit : hi * 2 ^ (p + w + j) = 2 ^ p * 2 ^ w * (hi * 2 ^ j) := by ring
  rw [bitField_eq_div_mod, bitField_eq_div_mod, ← Nat.mod_mul_right_div_self, ← Nat.mod_mul_right_div_self, hsplit,
    Nat.mul_add_mod]

/-- The field on top of the low k bits is what was put there. -/
theorem bitField_sum_high {hi lo k w : Nat} (hlo : lo < 2 ^ k) (hhi : hi < 2 ^ w) :
    bitField (hi * 2 ^ k + lo) k w = hi := by
  rw [bitField_eq_div_mod, Nat.add_comm, Nat.add_mul_div_right _ _ (Nat.two_pow_pos k), Nat.div_eq_of_lt hlo,
    Nat.zero_add, Nat.mod_eq_of_lt hhi]

/-- Fields side by side take the sum of their widths. -/
theorem sum_lt_two_pow {hi lo k w : Nat} (hlo : lo < 2 ^ k) (hhi : hi < 2 ^ w) : hi * 2 ^ k + lo < 2 ^ (k + w) := by
  calc hi * 2 ^ k + lo < (hi + 1) * 2 ^ k := by rw [Nat.succ_mul]; omega
    _ ≤ 2 ^ w * 2 ^ k := Nat.mul_le_mul_right _ hhi
    _ = 2 ^ (k + w) := by rw [Nat.add_comm, pow_add]

/-- The two lowest fields of a word: 4 bits and NW bits. -/
theorem low_fields_lt {op arg nw : Nat} (hop : op < 16) (harg : arg < 2 ^ nw) : arg * 16 + op < 2 ^ (nw + 4) := by
  rw [Nat.add_comm nw]
  exact sum_lt_two_pow (k := 4) hop harg

/-- The layout that a command word and the low part of a response word share (R62, R66). -/
theorem bitField_fields {op arg cnt nw cw : Nat} (hop : op < 16) (harg : arg < 2 ^ nw) (hcnt : cnt < 2 ^ cw) :
    let word := cnt * 2 ^ (nw + 4) + (arg * 16 + op)
    word < 2 ^ (nw + 4 + cw) ∧ bitField word 0 4 = op ∧ bitField word 4 nw = arg ∧
      bitField word (nw + 4) cw = cnt := by
  have hlow := low_fields_lt hop harg
  refine ⟨sum_lt_two_pow hlow hcnt, ?_, ?_, bitField_sum_high hlow hcnt⟩
  · rw [bitField_sum_low _ _ (by omega)]
    exact (bitField_sum_low (k := 4) arg op (by omega)).trans (Nat.mod_eq_of_lt hop)
  · rw [bitField_sum_low _ _ (by omega)]
    exact bitField_sum_high (k := 4) hop harg

/-! ## Command words (R62, R65) -/

section Decode
variable (cfg : Config) (w : Nat)

theorem opcode_decode : opcode (decode cfg w) = bitField w 0 4 := by
  rw [decode, opcode_fromOpcode]
  exact Nat.mod_eq_of_lt (bitField_lt w 0 4)

theorem decode_arg : (decode cfg w).arg = bitField w 4 cfg.nw := fromOpcode_arg _ _ _

theorem decode_cnt : (decode cfg w).cnt = bitField w (cfg.nw + 4) cfg.cw := fromOpcode_cnt _ _ _

end Decode

/-- A command is its three fields. -/
theorem fromOpcode_opcode (i : Instr) : fromOpcode (Fin.ofNat 16 (opcode i)) i.arg i.cnt = i := by
  cases i <;> rfl

/-- Settles O1: each field of the word is read back, and the three fields make the command. -/
theorem decodeOfEncode : Obligations.DecodeOfEncode := by
  intro cfg i ⟨harg, hcnt⟩
  obtain ⟨-, hop', harg', hcnt'⟩ := bitField_fields (opcode_lt i) harg hcnt
  rw [encode_eq_sum cfg i harg, decode, hop', harg', hcnt', fromOpcode_opcode]

/-- Settles O2: the fields of a word are its digits, from which its sum form gives it back. -/
theorem encodeOfDecode : Obligations.EncodeOfDecode := by
  intro cfg w hw
  have hcnt : (decode cfg w).cnt = w / 2 ^ (cfg.nw + 4) := by
    rw [decode_cnt, bitField_eq_div_mod]
    apply Nat.mod_eq_of_lt
    rwa [Nat.div_lt_iff_lt_mul (Nat.two_pow_pos _), ← pow_add, show cfg.cw + (cfg.nw + 4) = cfg.cmdw by
      unfold Config.cmdw; omega]
  have hlow : (decode cfg w).arg * 16 + opcode (decode cfg w) = w % 2 ^ (cfg.nw + 4) := by
    rw [decode_arg, opcode_decode, bitField_eq_div_mod, Nat.add_comm cfg.nw, pow_add, Nat.mod_mul, Nat.mul_comm,
      Nat.add_comm]
    rfl
  rw [encode_eq_sum _ _ (decode_wellFormed cfg w).1, hcnt, hlow]
  exact Nat.div_add_mod' _ _

/-- Settles O3. -/
theorem decodeReadsTheFields : Obligations.DecodeReadsTheFields :=
  ⟨fun cfg w => ⟨decode_wellFormed cfg w, opcode_decode cfg w,
      (decode_arg cfg w).trans (bitField_eq_div_mod _ 4 _), (decode_cnt cfg w).trans (bitField_eq_div_mod _ _ _)⟩,
    fun cfg i hi => ⟨(encode_eq_sum cfg i hi.1).trans (Nat.add_assoc _ _ _).symm,
      (Laws.EncodeFits.of_fields i cfg hi).1⟩⟩

/-! ## Response words (R66) -/

theorem Status.code_lt (st : Status) : st.code < 16 := by
  cases st <;> decide

/-- A response word is AUX on top of a word with the layout of a command word. -/
theorem responseWord_eq_sum {cfg : Config} {r : Response} (hv : r.value < 2 ^ cfg.nw) (hl : r.len < 2 ^ cfg.cw) :
    responseWord cfg r =
      r.aux * 2 ^ (cfg.nw + 4 + cfg.cw) + (r.len * 2 ^ (cfg.nw + 4) + (r.value * 16 + r.status.code)) := by
  have hcode := r.status.code_lt
  have hvalue := low_fields_lt hcode hv
  have hor : (r.value <<< 4) ||| r.status.code = r.value * 16 + r.status.code := shiftLeft_or_eq _ _ 4 hcode
  rw [responseWord, Nat.or_assoc, Nat.or_assoc, hor, shiftLeft_or_eq _ _ _ hvalue, Nat.add_right_comm,
    shiftLeft_or_eq _ _ _ (sum_lt_two_pow hvalue hl)]

/-- Settles O5. -/
theorem responseWordHoldsItsFields : Obligations.ResponseWordHoldsItsFields := by
  rintro cfg r ⟨hv, hl, ha, -⟩
  obtain ⟨hlow, hcode', hv', hl'⟩ := bitField_fields r.status.code_lt hv hl
  rw [responseWord_eq_sum hv hl, Nat.add_right_comm cfg.nw cfg.cw]
  refine ⟨?_, ?_, ?_, ?_, bitField_sum_high hlow ha⟩
  · rw [rspw, show 4 + cfg.nw + 2 * cfg.cw = cfg.nw + 4 + cfg.cw + cfg.cw by omega]
    exact sum_lt_two_pow hlow ha
  · rw [bitField_sum_low _ _ (by omega), hcode']
  · rw [bitField_sum_low _ _ (by omega), hv']
  · rw [bitField_sum_low _ _ (by omega), hl']

/-! ## Worked lines (R71 to R73) -/

/-- Settles O4: ENCODE 6 looks at no field of the state, and the words and lines are closed terms to evaluate. -/
theorem workedCommandWords : Obligations.WorkedCommandWords :=
  ⟨by decide, by decide, by decide, by decide, fun _ => rfl, by decide⟩

/-- Settles O8, by evaluation of each line. -/
theorem pseudoCommandsExpand : Obligations.PseudoCommandsExpand := by
  unfold Obligations.PseudoCommandsExpand
  decide

/-! ## Ignored fields and reserved opcodes (R64, R69) -/

/-- APPEND_BIT reads bit 0 of ARG only. -/
theorem execAppendBit_congr {a a' : Nat} (c c' : Nat) (s : State) (h : a % 2 = a' % 2) :
    execAppendBit a c s = execAppendBit a' c' s := by
  have hbit : a.testBit 0 = a'.testBit 0 := by rw [Nat.testBit_zero, Nat.testBit_zero, h]
  unfold execAppendBit
  rw [hbit]

/-- Settles O6: no meaning names a field it ignores, and APPEND_BIT's names ARG[0] alone. -/
theorem ignoredFieldsDoNothing : Obligations.IgnoredFieldsDoNothing := fun s _ c _ c' =>
  ⟨rfl, rfl, rfl, rfl, execAppendBit_congr c c' s, rfl, rfl, rfl, rfl, rfl, rfl, rfl, rfl, rfl, rfl⟩

/-- Settles O7. -/
theorem reservedOpcodesAreIllegalCommands : Obligations.ReservedOpcodesAreIllegalCommands := by
  intro s a c i hi
  simp only [List.mem_cons, List.not_mem_nil, or_false] at hi
  have hop : 0xC ≤ opcode i ∧ opcode i ≤ 0xF := by
    obtain rfl | rfl | rfl | rfl := hi <;> simp [opcode]
  have hexec : exec i s = s.illegal := by
    obtain rfl | rfl | rfl | rfl := hi <;> rfl
  exact ⟨hop.1, hop.2, hexec.trans (s.raise_eq _ _ _)⟩

end Sys2Proof.Machine

/-! PROOFS of the family 40_codeword. The zeros of a codeword tell how many bits stand after its 1, so
`gdec` reads it back whatever follows it (R98); hence no codeword starts another (R95). -/

namespace Sys2Proof.Machine

/-! ## bits_k and val are inverse (00_scope.md R13) -/

theorem bitsOf_length_valOf (s : Bits) : bitsOf s.length (valOf s) = s := by
  induction s with
  | nil => rfl
  | cons b s ih =>
    have hbit (i : Nat) : (valOf (b :: s)).testBit i =
        if i < s.length then (valOf s).testBit i else b.toNat.testBit (i - s.length) := by
      rw [valOf_cons, Nat.mul_comm]
      exact Nat.testBit_two_pow_mul_add _ (valOf_lt s) i
    have hrest : bitsOf s.length (valOf (b :: s)) = bitsOf s.length (valOf s) :=
      bitsOf_congr fun i hi => by rw [hbit, if_pos hi]
    rw [List.length_cons, bitsOf, hrest, ih, hbit, if_neg (Nat.lt_irrefl _), Nat.sub_self]
    cases b <;> rfl

/-! ## Exponent, remainder and the codeword's parts (R90 to R93) -/

theorem two_pow_exponent_add_remainder {n : Nat} (h : n ≠ 0) : 2 ^ exponent n + remainder n = n :=
  Nat.add_sub_of_le (two_pow_exponent_le h)

theorem exponent_eq_iff {n e : Nat} (h : n ≠ 0) : exponent n = e ↔ 2 ^ e ≤ n ∧ n < 2 ^ (e + 1) :=
  Nat.log2_eq_iff h

theorem exponent_le_of_le {m n : Nat} (hm : m ≠ 0) (h : m ≤ n) : exponent m ≤ exponent n :=
  Nat.lt_succ_iff.mp (exponent_lt hm (h.trans_lt (lt_two_pow_exponent n)))

theorem valOf_remainder_bits (n : Nat) : valOf (bitsOf (exponent n) (remainder n)) = remainder n := by
  rw [valOf_bitsOf, Nat.mod_eq_of_lt remainder_lt]

/-- Zeros, the terminator and the remainder, as a list that starts with its zeros. -/
theorem codeword_eq (n : Nat) : codeword n =
    List.replicate (exponent n) false ++ true :: bitsOf (exponent n) (remainder n) := by
  rw [codeword, List.append_assoc, List.singleton_append]

theorem leadingZeros_terminated (z : Nat) (s : Bits) : leadingZeros (List.replicate z false ++ true :: s) = z :=
  leadingZeros_replicate_append z (true :: s)

theorem valOf_terminated (z : Nat) (s : Bits) :
    valOf (List.replicate z false ++ true :: s) = 2 ^ s.length + valOf s := by
  rw [valOf_append, valOf_replicate_false, valOf_cons, Nat.zero_mul, Nat.zero_add, Bool.toNat_true, Nat.one_mul]

/-- Settles O9. -/
theorem codewordShape : Obligations.CodewordShape := by
  intro cfg n hn hw
  have hn0 : n ≠ 0 := Nat.ne_of_gt hn
  have he : exponent n < cfg.nw := exponent_lt hn0 hw
  have hlen : codeLength n ≤ lmax cfg := by unfold codeLength lmax; omega
  exact ⟨two_pow_exponent_le hn0, lt_two_pow_exponent n, he, (two_pow_exponent_add_remainder hn0).symm, remainder_lt,
    rfl, hlen, _, codeword_eq n, length_bitsOf _ _, valOf_remainder_bits n⟩

/-! ## The packed form (R94) -/

theorem valOf_codeword {n : Nat} (h : n ≠ 0) : valOf (codeword n) = n := by
  rw [codeword_eq, valOf_terminated, length_bitsOf, valOf_remainder_bits, two_pow_exponent_add_remainder h]

/-- The codeword is n written with L(n) digits. -/
theorem codeword_eq_bitsOf {n : Nat} (h : n ≠ 0) : codeword n = bitsOf (codeLength n) n := by
  simpa [valOf_codeword h] using (bitsOf_length_valOf (codeword n)).symm

/-- Settles O10. -/
theorem codewordIsPackedValue : Obligations.CodewordIsPackedValue := fun _ hn =>
  ⟨valOf_codeword (Nat.ne_of_gt hn), codeword_eq_bitsOf (Nat.ne_of_gt hn)⟩

/-! ## Lengths (R96) -/

/-- Settles O12: a length determines its exponent, and the other way round. -/
theorem codeLengthMonotoneAndCounted : Obligations.CodeLengthMonotoneAndCounted := by
  refine ⟨fun m n hm hmn => ?_, fun n e hn => ?_⟩
  · have := exponent_le_of_le (Nat.ne_of_gt hm) hmn.le
    unfold codeLength
    omega
  · have hlen : codeLength n = 2 * e + 1 ↔ exponent n = e := by unfold codeLength; omega
    exact hlen.trans (exponent_eq_iff (Nat.ne_of_gt hn))

/-! ## The pure decoding function (R98), and codewords that start codewords (R95) -/

/-- gdec of fewer than NW zeros, a 1 and as many bits is OK, whatever follows (R98's last case). -/
theorem gdec_done {nw : Nat} (bits rest : Bits) (h : bits.length < nw) :
    gdec nw (List.replicate bits.length false ++ true :: (bits ++ rest)) =
      .ok (2 ^ bits.length + valOf bits) (2 * bits.length + 1) := by
  have hz := leadingZeros_terminated bits.length (bits ++ rest)
  have hdrop : (List.replicate bits.length false ++ true :: (bits ++ rest)).drop (bits.length + 1) = bits ++ rest := by
    simp [List.drop_append]
  have hlen : (List.replicate bits.length false ++ true :: (bits ++ rest)).length =
      2 * bits.length + 1 + rest.length := by simp; omega
  rw [gdec, hz, hdrop, List.take_left, hlen, if_neg (by omega), if_neg (by omega), if_neg (by omega)]

theorem gdec_codeword_append {nw n : Nat} (t : Bits) (hn : n ≠ 0) (h : n < 2 ^ nw) :
    gdec nw (codeword n ++ t) = .ok n (codeLength n) := by
  have hdone := gdec_done (bitsOf (exponent n) (remainder n)) t ((length_bitsOf _ _).trans_lt (exponent_lt hn h))
  rw [length_bitsOf, valOf_remainder_bits, two_pow_exponent_add_remainder hn] at hdone
  rwa [codeword_eq, List.append_assoc, List.cons_append]

/-- Settles O13. -/
theorem gdecInvertsCodeword : Obligations.GdecInvertsCodeword := fun _ _ t hn h =>
  gdec_codeword_append t (Nat.ne_of_gt hn) h

/-- At a width that both integers fit, gdec reads m off the front of cw(n), and n off the whole of it. -/
theorem eq_of_codeword_isPrefix {m n : Nat} (hm : m ≠ 0) (hn : n ≠ 0) (h : codeword m <+: codeword n) : m = n := by
  obtain ⟨t, ht⟩ := h
  have hread := gdec_codeword_append t hm ((le_max_left m n).trans_lt Nat.lt_two_pow_self)
  rw [ht, ← List.append_nil (codeword n),
    gdec_codeword_append [] hn ((le_max_right m n).trans_lt Nat.lt_two_pow_self), Decoded.ok.injEq] at hread
  exact hread.1.symm

/-- A codeword has one parse as zeros, a 1 and a rest. -/
theorem codeword_parse {n z : Nat} {rest : Bits} (h : codeword n = List.replicate z false ++ true :: rest) :
    z = exponent n ∧ rest = bitsOf (exponent n) (remainder n) := by
  rw [codeword_eq] at h
  obtain rfl : exponent n = z := by simpa only [leadingZeros_terminated] using congrArg leadingZeros h
  exact ⟨rfl, (List.cons.inj (List.append_cancel_left h)).2.symm⟩

/-- Settles O11, by reading back with gdec. -/
theorem codewordsArePrefixFree : Obligations.CodewordsArePrefixFree := by
  refine ⟨fun m n hm hn hne h => hne ?_, fun n z rest _ h => ?_⟩
  · exact eq_of_codeword_isPrefix (Nat.ne_of_gt hm) (Nat.ne_of_gt hn) h
  · obtain ⟨rfl, rfl⟩ := codeword_parse h
    exact ⟨length_codeword n, length_bitsOf _ _, valOf_remainder_bits n⟩

end Sys2Proof.Machine

/-! PROOFS of the family 41_encoder. An equation per outcome of ENCODE, ENCODE_APPEND and APPEND_BITS; the three
statements are read off them. -/

namespace Sys2Proof.Machine

/-! ## Append, by whether the bits fit (R140) -/

theorem State.append_of_fits {s : State} {bits : Bits} (h : s.wlen + bits.length ≤ s.cfg.cap) :
    s.append bits = .ok (s.extended bits) := if_neg (Nat.not_lt.mpr h)

theorem State.append_of_full {s : State} {bits : Bits} (h : s.cfg.cap < s.wlen + bits.length) :
    s.append bits = .error ⟨.capacityError, 0, bits.length, s.cfg.cap - s.wlen⟩ := if_pos h

/-- After an append of some bit the cursor stands before the end (R24). -/
theorem State.extended_atEnd {s : State} {bits : Bits} (hc : s.rpos ≤ s.wlen) (hpos : 0 < bits.length) :
    (s.extended bits).atEnd = false := by
  have hne : s.rpos ≠ s.wlen + bits.length := by omega
  exact beq_false_of_ne hne

theorem codeLength_pos (n : Nat) : 0 < codeLength n := Nat.succ_pos _

section EncoderCommands
variable {s : State} {n : Nat} (c : Nat)

/-! ## APPEND_BITS (R148) -/

theorem exec_appendBits_of_fits {v k : Nat} (hfit : s.wlen + k ≤ s.cfg.cap) :
    exec (.appendBits v k) s = .next ((s.extended (bitsOf k v)).answered ⟨.ok, 0, s.wlen + k, 0⟩) := by
  have happ : s.append (bitsOf k v) = .ok (s.extended (bitsOf k v)) :=
    State.append_of_fits (by rwa [length_bitsOf])
  simp only [exec, execAppendBits, happ, State.respond_eq, State.extended_wlen, length_bitsOf]

theorem exec_appendBits_of_full {v k : Nat} (hfull : s.cfg.cap < s.wlen + k) :
    exec (.appendBits v k) s = .next (s.answered ⟨.capacityError, 0, k, s.cfg.cap - s.wlen⟩) := by
  have happ := State.append_of_full (s := s) (bits := bitsOf k v) (by rwa [length_bitsOf])
  simp only [exec, execAppendBits, happ, State.raise_eq, length_bitsOf]

/-! ## ENCODE (R101) and ENCODE_APPEND (R102) -/

theorem exec_encode_zero : exec (.encode 0 c) s = .next (s.answered ⟨.domainError, 0, 0, 0⟩) := rfl

theorem exec_encode (hn : n ≠ 0) :
    exec (.encode n c) s = .next (s.answered ⟨.ok, n, codeLength n, exponent n⟩) := if_neg hn

theorem exec_encodeAppend_zero : exec (.encodeAppend 0 c) s = .next (s.answered ⟨.domainError, 0, 0, 0⟩) := rfl

theorem exec_encodeAppend_of_fits (hn : n ≠ 0) (hfit : s.wlen + codeLength n ≤ s.cfg.cap) :
    exec (.encodeAppend n c) s =
      .next ((s.extended (codeword n)).answered ⟨.ok, n, codeLength n, exponent n⟩) := by
  have happ : s.append (codeword n) = .ok (s.extended (codeword n)) :=
    State.append_of_fits (by rwa [length_codeword])
  simp only [exec, execEncodeAppend, if_neg hn, encoder, ← codeword_eq_bitsOf hn, happ, State.respond_eq]

theorem exec_encodeAppend_of_full (hn : n ≠ 0) (hfull : s.cfg.cap < s.wlen + codeLength n) :
    exec (.encodeAppend n c) s =
      .next (s.answered ⟨.capacityError, 0, codeLength n, s.cfg.cap - s.wlen⟩) := by
  have happ := State.append_of_full (s := s) (bits := codeword n) (by rwa [length_codeword])
  simp only [exec, execEncodeAppend, if_neg hn, encoder, ← codeword_eq_bitsOf hn, happ, State.raise_eq,
    length_codeword]

end EncoderCommands

/-- Settles O15. -/
theorem encodeAppendExtendsStream : Obligations.EncodeAppendExtendsStream := by
  intro s n c hs
  obtain ⟨-, ⟨hcur, -⟩, hwf, -⟩ := hs
  refine ⟨rfl, fun hn hfit => ⟨_, exec_encodeAppend_of_fits c hn hfit, rfl, ?_, ?_, rfl, ?_⟩, ?_, ?_⟩
  · exact s.extended_stream (codeword n) hwf
  · rw [State.answered_wlen, State.extended_wlen, length_codeword]
  · exact State.extended_atEnd hcur (by rw [length_codeword]; exact codeLength_pos n)
  · rintro rfl
    exact exec_encodeAppend_zero c
  · exact exec_encodeAppend_of_full c

/-- Settles O16: the ENCODE changes nothing that APPEND_BITS reads, and the codeword is n in L(n) bits (R94). -/
theorem encodeAppendIsEncodeThenAppendBits : Obligations.EncodeAppendIsEncodeThenAppendBits := by
  intro s n c c'
  refine ⟨?_, fun hn => ?_⟩
  · rintro rfl
    rw [exec_encodeAppend_zero, exec_encode_zero]
  · rcases Nat.lt_or_ge s.cfg.cap (s.wlen + codeLength n) with hfull | hfit
    · exact ⟨_, _, _, exec_encode c' hn, exec_appendBits_of_full hfull, exec_encodeAppend_of_full c hn hfull,
        rfl, rfl, rfl, fun hfit => absurd hfit (Nat.not_le.mpr hfull), fun _ => rfl⟩
    · have happ := exec_encodeAppend_of_fits c hn hfit
      rw [codeword_eq_bitsOf hn] at happ
      exact ⟨_, _, _, exec_encode c' hn, exec_appendBits_of_fits hfit, happ,
        rfl, rfl, rfl, fun _ => rfl, fun hfull => absurd hfit (Nat.not_le.mpr hfull)⟩

/-- Settles O14; the exponent is the logarithm by definition (R90). -/
theorem encodeAnswersPackedCodeword : Obligations.EncodeAnswersPackedCodeword := by
  refine fun s n c => ⟨rfl, fun hn => exec_encode c hn, ?_⟩
  rintro rfl
  exact exec_encode_zero c

end Sys2Proof.Machine

/-! PROOFS of the family 42_decoder. A stream has one of four forms, told apart by its leading zeros; on each of them
the R121 machine and `gdec` agree (R121, R98). So DECODE is one equation in `gdec` of the unread stream (R122), and the
statements about single outcomes are read off it. -/

namespace Sys2Proof.Machine

/-! ## gdec on the forms of a stream (R98) -/

theorem gdec_overflow (nw : Nat) (s : Bits) : gdec nw (List.replicate nw false ++ s) = .overflow := by
  have hz : nw ≤ leadingZeros (List.replicate nw false ++ s) := by
    rw [leadingZeros_replicate_append]
    exact Nat.le_add_right _ _
  exact if_pos hz

theorem gdec_zeros {nw z : Nat} (h : z < nw) : gdec nw (List.replicate z false) = .truncated .unary z := by
  rw [gdec, leadingZeros_replicate, List.length_replicate, if_neg (Nat.not_le.mpr h), if_pos rfl]

theorem gdec_short {nw z : Nat} {s : Bits} (h : z < nw) (hs : s.length < z) :
    gdec nw (List.replicate z false ++ true :: s) =
      .truncated .binary (List.replicate z false ++ true :: s).length := by
  have hlen : (List.replicate z false ++ true :: s).length = z + (s.length + 1) := by simp
  rw [gdec, leadingZeros_terminated, hlen, if_neg (by omega), if_neg (by omega), if_pos (by omega)]

/-- A stream starts with NW zeros, is fewer zeros, has too few bits after its first 1, or starts with the zeros, the 1
and the remainder bits of a codeword. -/
theorem stream_forms (nw : Nat) (s : Bits) :
    (∃ t, s = List.replicate nw false ++ t) ∨
    (∃ z < nw, s = List.replicate z false) ∨
    (∃ z < nw, ∃ t, t.length < z ∧ s = List.replicate z false ++ true :: t) ∨
    ∃ bits rest, bits.length < nw ∧ s = List.replicate bits.length false ++ true :: (bits ++ rest) := by
  by_cases hz : nw ≤ leadingZeros s
  · exact .inl (exists_eq_replicate_append hz)
  rw [Nat.not_le] at hz
  rcases leadingZeros_split s with hs | ⟨t, hs⟩
  · exact .inr (.inl ⟨_, hz, hs⟩)
  · rcases Nat.lt_or_ge t.length (leadingZeros s) with ht | ht
    · exact .inr (.inr (.inl ⟨_, hz, t, ht, hs⟩))
    · have hlen : (t.take (leadingZeros s)).length = leadingZeros s := List.length_take_of_le ht
      refine .inr (.inr (.inr ⟨t.take (leadingZeros s), t.drop (leadingZeros s), ?_, ?_⟩))
      · rwa [hlen]
      · rwa [hlen, List.take_append_drop]

/-- Settles O17, form by form. -/
theorem decoderMachineComputesGdec : Obligations.DecoderMachineComputesGdec := by
  intro nw rpos unread hnw
  rcases stream_forms nw unread with
    ⟨t, rfl⟩ | ⟨z, hz, rfl⟩ | ⟨z, hz, t, ht, rfl⟩ | ⟨bits, rest, hbits, rfl⟩
  · rw [runDecoder_overflow rpos t hnw, gdec_overflow]
  · rw [runDecoder_zeros rpos hz, gdec_zeros hz]
  · rw [runDecoder_short rpos hz ht, gdec_short hz ht]
  · rw [runDecoder_done rpos bits rest hbits, gdec_done bits rest hbits]

/-- DONE is no phase in which a stream ends (R124). -/
theorem gdec_ne_truncated_done (nw k : Nat) (s : Bits) : gdec nw s ≠ .truncated .done k := by
  rcases stream_forms nw s with ⟨t, rfl⟩ | ⟨z, hz, rfl⟩ | ⟨z, hz, t, ht, rfl⟩ | ⟨bits, rest, hbits, rfl⟩
  · simp [gdec_overflow]
  · simp [gdec_zeros hz]
  · simp [gdec_short hz ht]
  · simp [gdec_done bits rest hbits]

/-! ## DECODE (R122) -/

/-- The state in which DECODE answers the result d of its unread stream. -/
def State.decodeAnswered (s : State) : Decoded → State
  | .overflow => s.decoderReleased.answered ⟨.decodeOverflow, 0, s.cfg.nw, 0⟩
  | .truncated phase consumed => s.decoderReleased.answered ⟨.truncatedStream, 0, consumed, phase.code⟩
  | .ok n m => (s.decoderReleased.movedTo (s.rpos + m)).answered ⟨.ok, n, m, (m - 1) / 2⟩

@[simp] theorem State.decodeAnswered_wlen (s : State) (d : Decoded) : (s.decodeAnswered d).wlen = s.wlen := by
  cases d <;> rfl

@[simp] theorem State.decodeAnswered_stream (s : State) (d : Decoded) : (s.decodeAnswered d).stream = s.stream := by
  cases d <;> rfl

/-- Where no more than the unread stream is decoded, the rest of it is left unread. -/
theorem State.decodeAnswered_ok_unread {s : State} (n : Nat) {m : Nat} (h : s.rpos + m ≤ s.wlen) :
    (s.decodeAnswered (.ok n m)).unread = s.unread.drop m := by
  rw [State.unread_eq_drop s (by omega), State.unread_eq_drop _ h, List.drop_drop, State.decodeAnswered_stream]
  rfl

section DecodeCommand
variable {s : State} (a c : Nat)

/-- In a legal state every read position exists, and the machine's run is what `gdec` says. -/
theorem exec_decode {d : Decoded} (hs : s.Inv) (hd : gdec s.cfg.nw s.unread = d) :
    exec (.decode a c) s = .next (s.decodeAnswered d) := by
  obtain ⟨⟨hnw, -⟩, ⟨hr, hw⟩, -⟩ := hs
  have hread : s.readBits s.rpos (s.wlen - s.rpos) = .ok s.unread := State.readBits_of_le (by omega)
  have hrun := decoderMachineComputesGdec s.cfg.nw s.rpos s.unread hnw
  simp only [exec, execDecode, hread, hrun, hd]
  cases d <;> rfl

/-- A codeword at the cursor is decoded, whatever follows it (R98). -/
theorem exec_decode_codeword {n : Nat} {rest : Bits} (hs : s.Inv) (hn : n ≠ 0) (hw : n < 2 ^ s.cfg.nw)
    (hu : s.unread = codeword n ++ rest) :
    exec (.decode a c) s = .next (s.decodeAnswered (.ok n (codeLength n))) :=
  exec_decode a c hs (by rw [hu, gdec_codeword_append rest hn hw])

end DecodeCommand

/-- Settles O18. -/
theorem decodeFollowsGdec : Obligations.DecodeFollowsGdec := by
  intro s a c hs
  refine ⟨rfl, _, exec_decode a c hs rfl, State.decodeAnswered_stream _ _, State.decodeAnswered_wlen _ _, ?_⟩
  cases hg : gdec s.cfg.nw s.unread with
  | overflow => exact ⟨rfl, rfl⟩
  | ok n m => exact ⟨rfl, rfl⟩
  | truncated phase k =>
    cases phase with
    | unary => exact ⟨rfl, rfl⟩
    | binary => exact ⟨rfl, rfl⟩
    | done => exact gdec_ne_truncated_done _ _ _ hg

/-- Settles O20: the consumed bits are the length of the unread stream. -/
theorem truncatedDecodeConsumesNothing : Obligations.TruncatedDecodeConsumesNothing := by
  intro s z a c hs hz
  refine ⟨fun hu => ?_, fun rest hrest hu => ?_⟩
  · have hg : gdec s.cfg.nw s.unread = .truncated .unary (s.wlen - s.rpos) := by
      rw [← State.length_unread, hu, gdec_zeros hz, List.length_replicate]
    exact ⟨_, exec_decode a c hs hg, rfl, rfl, rfl⟩
  · have hg : gdec s.cfg.nw s.unread = .truncated .binary (s.wlen - s.rpos) := by
      rw [← State.length_unread, hu, gdec_short hz hrest]
    exact ⟨_, exec_decode a c hs hg, rfl, rfl, rfl⟩

/-- Settles O21. -/
theorem decodeOverflowsAtNwZeros : Obligations.DecodeOverflowsAtNwZeros := by
  intro s a c rest hs hu
  have hg : gdec s.cfg.nw s.unread = .overflow := by rw [hu, gdec_overflow]
  exact ⟨_, exec_decode a c hs hg, rfl, rfl, rfl⟩

/-! ## The round trip (R126) -/

/-- AUX of a decoded codeword is its exponent. -/
theorem codeLength_sub_one_div_two (n : Nat) : (codeLength n - 1) / 2 = exponent n := by
  unfold codeLength
  omega

theorem State.decodeAnswered_codeword_response (s : State) (n : Nat) :
    (s.decodeAnswered (.ok n (codeLength n))).response = some ⟨.ok, n, codeLength n, exponent n⟩ := by
  rw [← codeLength_sub_one_div_two n]
  rfl

/-- The state that an ENCODE_APPEND leaves is legal again (R15, R25). -/
theorem State.Inv.extended_codeword_answered {s : State} {n : Nat} (hs : s.Inv) (hn : n ≠ 0) (hw : n < 2 ^ s.cfg.nw)
    (hfit : s.wlen + codeLength n ≤ s.cfg.cap) :
    ((s.extended (codeword n)).answered ⟨.ok, n, codeLength n, exponent n⟩).Inv := by
  have hdata := ((State.inv_iff s).mp hs).1
  obtain ⟨hlen, hexp⟩ := encoder_fits_of_legal hdata.legal hn hw
  exact (hdata.extended (by rwa [length_codeword])).answered_inv ⟨hw, hlen, hexp, Status.noConfusion⟩

/-- Settles O19. -/
theorem encodeAppendThenDecodeRoundTrip : Obligations.EncodeAppendThenDecodeRoundTrip := by
  refine ⟨fun s n a c rest hs hn hw hu => ?_, fun s n a c c' hs hend hn hw hfit => ?_⟩
  · have hlen : s.wlen - s.rpos = codeLength n + rest.length := by
      rw [← State.length_unread, hu, List.length_append, length_codeword]
    have hpos := codeLength_pos n
    refine ⟨_, exec_decode_codeword a c hs (Nat.ne_of_gt hn) hw hu, State.decodeAnswered_codeword_response s n,
      rfl, rfl, ?_⟩
    rw [State.decodeAnswered_ok_unread n (by omega), hu, List.drop_left' (length_codeword n)]
  · have hn0 := Nat.ne_of_gt hn
    have ht := hs.extended_codeword_answered hn0 hw hfit
    obtain ⟨-, -, hwf, -⟩ := hs
    have hempty : s.unread = [] := List.eq_nil_of_length_eq_zero (by rw [State.length_unread]; omega)
    have hu : (s.extended (codeword n)).unread = codeword n ++ [] := by
      rw [State.extended_unread s _ hwf hend.le, hempty, List.nil_append, List.append_nil]
    refine ⟨_, _, exec_encodeAppend_of_fits c' hn0 hfit, exec_decode_codeword a c ht hn0 hw hu,
      State.decodeAnswered_codeword_response _ n, ?_⟩
    show s.rpos + codeLength n = s.wlen + (codeword n).length
    rw [hend, length_codeword]

end Sys2Proof.Machine

/-! PROOFS of the family 43_bitstream. An equation per outcome of each command, as 41_encoder has them for APPEND_BITS;
the statements are read off them. STREAM_CLEAR leaves the view of the reset state, so that no command tells the two
apart (R21). -/

namespace Sys2Proof.Machine

section BitstreamCommands
variable {s : State} (a c : Nat)

/-! ## APPEND_BIT (R145) -/

theorem exec_appendBit_of_fits (hfit : s.wlen < s.cfg.cap) :
    exec (.appendBit a c) s = .next ((s.extended [a.testBit 0]).answered ⟨.ok, 0, s.wlen + 1, 0⟩) := by
  have happ : s.append [a.testBit 0] = .ok (s.extended [a.testBit 0]) := State.append_of_fits hfit
  simp only [exec, execAppendBit, happ]
  rfl

theorem exec_appendBit_of_full (hfull : s.wlen = s.cfg.cap) :
    exec (.appendBit a c) s = .next (s.answered ⟨.capacityError, 0, 1, 0⟩) := by
  have hlt : s.cfg.cap < s.wlen + [a.testBit 0].length := Nat.lt_succ_of_le hfull.ge
  simp only [exec, execAppendBit, State.append_of_full hlt, hfull, Nat.sub_self]
  rfl

/-! ## READ_BIT (R151) -/

/-- ATEND as a number (R24, R67). -/
theorem State.atEndBit_eq (s : State) : s.atEndBit = if s.rpos = s.wlen then 1 else 0 := by
  unfold State.atEndBit State.atEnd
  by_cases h : s.rpos = s.wlen <;> simp [h]

/-- VALUE is wide enough for one bit (R7, R12). -/
theorem zext_of_le_one {cfg : Config} {v : Nat} (hnw : 1 ≤ cfg.nw) (hv : v ≤ 1) : zext cfg v = v :=
  zext_of_lt (Nat.lt_of_le_of_lt hv (Nat.one_lt_two_pow (Nat.ne_of_gt hnw)))

theorem exec_readBit_of_lt (hs : s.Inv) (hlt : s.rpos < s.wlen) :
    exec (.readBit a c) s = .next ((s.movedTo (s.rpos + 1)).answered
      ⟨.ok, (s.buf.bit s.rpos).toNat, s.rpos + 1, if s.rpos + 1 = s.wlen then 1 else 0⟩) := by
  obtain ⟨⟨hnw, -⟩, ⟨-, hcap⟩, -⟩ := hs
  have hread : s.readBits s.rpos 1 = .ok [s.buf.bit s.rpos] := State.readBits_of_le (by omega)
  have hval : zext s.cfg (valOf [s.buf.bit s.rpos]) = (s.buf.bit s.rpos).toNat := by
    rw [valOf_cons, valOf_nil, List.length_nil, pow_zero, Nat.mul_one, Nat.add_zero,
      zext_of_le_one hnw (Bool.toNat_le _)]
  simp only [exec, execReadBit, if_neg hlt.ne, hread, hval, State.atEndBit_eq]
  rfl

theorem exec_readBit_of_atEnd (hend : s.rpos = s.wlen) :
    exec (.readBit a c) s = .next (s.answered ⟨.endOfStream, 0, 0, 0⟩) := if_pos hend

/-! ## STREAM_SEEK (R157) -/

theorem exec_streamSeek_of_le {p : Nat} (hp : p ≤ s.wlen) :
    exec (.streamSeek a p) s = .next ((s.movedTo p).answered ⟨.ok, 0, s.wlen, p⟩) :=
  if_neg (Nat.not_lt.mpr hp)

theorem exec_streamSeek_of_gt {p : Nat} (hp : s.wlen < p) :
    exec (.streamSeek a p) s = .next (s.answered ⟨.positionRange, 0, s.wlen, 0⟩) := if_pos hp

/-! ## READ_BYTE (R160) -/

theorem ceil8_eq (w : Nat) : ceil8 w = (w + 7) / 8 := Nat.shiftRight_eq_div_pow _ 3

/-- The stream's bits in byte k: at most eight, fewer in its last byte (R45). -/
def State.byteBits (s : State) (k : Nat) : Bits := s.buf.bits (8 * k) (min 8 (s.wlen - 8 * k))

theorem State.length_byteBits_le (s : State) (k : Nat) : (s.byteBits k).length ≤ 8 :=
  (Memory.length_bits _ _ _).trans_le (Nat.min_le_left _ _)

/-- They stand at the stream's positions from 8k on. -/
theorem State.byteBits_getElem? (s : State) (k : Nat) {j : Nat} (hj : j < 8) :
    (s.byteBits k)[j]? = s.stream[8 * k + j]? := by
  rw [State.byteBits, Memory.getElem?_bits, State.stream_getElem?]
  exact if_congr (by omega) rfl rfl

theorem exec_readByte_of_lt {k : Nat} (hcap : s.wlen ≤ s.cfg.cap) (hk : 8 * k < s.wlen) :
    exec (.readByte a k) s =
      .next (s.answered ⟨.ok, zext s.cfg (paddedByte (s.byteBits k)), (s.wlen + 7) / 8, 0⟩) := by
  have hread : s.readBits (8 * k) (min 8 (s.wlen - 8 * k)) = .ok (s.byteBits k) :=
    State.readBits_of_le (by omega)
  simp only [exec, execReadByte, if_neg (Nat.not_le.mpr hk), hread, State.respond_eq, ceil8_eq]

theorem exec_readByte_of_le {k : Nat} (hk : s.wlen ≤ 8 * k) :
    exec (.readByte a k) s = .next (s.answered ⟨.positionRange, 0, (s.wlen + 7) / 8, 0⟩) := by
  simp only [exec, execReadByte, if_pos hk, State.raise_eq, ceil8_eq]

end BitstreamCommands

/-! ## The packed byte (20_memory.md R42) -/

/-- The digits of val(s), from the most significant on, are s (00_scope.md R13). -/
theorem getElem?_eq_testBit_valOf {s : Bits} {i : Nat} (h : i < s.length) :
    s[i]? = some ((valOf s).testBit (s.length - 1 - i)) := by
  conv_lhs => rw [← bitsOf_length_valOf s]
  rw [getElem?_bitsOf, if_pos h]

section PaddedByte
variable {bits : Bits} (h : bits.length ≤ 8)
include h

theorem length_padded : (bits ++ List.replicate (8 - bits.length) false).length = 8 := by
  rw [List.length_append, List.length_replicate, Nat.add_sub_of_le h]

theorem paddedByte_lt : paddedByte bits < 256 := by
  have hlt := valOf_lt (bits ++ List.replicate (8 - bits.length) false)
  rwa [length_padded h] at hlt

/-- Bit 7 - j is the j-th of the bits, or 0 where there are fewer. -/
theorem testBit_paddedByte {j : Nat} (hj : j < 8) : (paddedByte bits).testBit (7 - j) = bits[j]?.getD false := by
  have hlen := length_padded h
  have hbit := getElem?_eq_testBit_valOf (s := bits ++ List.replicate (8 - bits.length) false) (hj.trans_eq hlen.symm)
  rw [hlen] at hbit
  calc (paddedByte bits).testBit (7 - j)
      = (bits ++ List.replicate (8 - bits.length) false)[j]?.getD false := by rw [hbit]; rfl
    _ = bits[j]?.getD false := by
      rcases Nat.lt_or_ge j bits.length with hlt | hge
      · rw [List.getElem?_append_left hlt]
      · rw [List.getElem?_append_right hge, List.getElem?_replicate, if_pos (by omega),
          List.getElem?_eq_none hge]
        rfl

end PaddedByte

/-! ## The statements -/

/-- Settles O23. -/
theorem appendBitExtendsStream : Obligations.AppendBitExtendsStream := by
  intro s a c hs
  obtain ⟨-, ⟨hcur, -⟩, hwf, -⟩ := hs
  refine ⟨rfl, fun hfit => ⟨_, exec_appendBit_of_fits a c hfit, rfl, ?_, rfl, rfl, ?_⟩, exec_appendBit_of_full a c⟩
  · rw [← Nat.testBit_zero]
    exact s.extended_stream [a.testBit 0] hwf
  · exact State.extended_atEnd hcur Nat.one_pos

/-- Settles O24: old positions are read from the old stream, new ones from bits_k(v). -/
theorem appendBitsExtendsStream : Obligations.AppendBitsExtendsStream := by
  intro s v k hs
  obtain ⟨-, ⟨hcur, -⟩, hwf, -⟩ := hs
  have hstream := s.extended_stream (bitsOf k v) hwf
  refine ⟨rfl, fun hfit => ⟨_, exec_appendBits_of_fits hfit, rfl, ?_, rfl, fun hk => ?_, fun p hp => ?_,
    fun i hi => ?_⟩, exec_appendBits_of_full⟩
  · rw [State.answered_wlen, State.extended_wlen, length_bitsOf]
  · exact State.extended_atEnd hcur (by rwa [length_bitsOf])
  · rw [State.answered_stream, hstream, List.getElem?_append_left (by rwa [State.length_stream])]
  · rw [State.answered_stream, hstream, List.getElem?_append_right (by rw [State.length_stream]; omega),
      State.length_stream, Nat.add_sub_cancel_left, getElem?_bitsOf, if_pos hi]

/-- Settles O25. -/
theorem readBitTakesNextBit : Obligations.ReadBitTakesNextBit := by
  intro s a c hs
  refine ⟨rfl, fun b hb => ?_, exec_readBit_of_atEnd a c⟩
  rw [State.stream_getElem?, Option.ite_none_right_eq_some] at hb
  obtain ⟨hlt, hbit⟩ := hb
  obtain rfl : s.buf.bit s.rpos = b := Option.some.inj hbit
  exact ⟨_, exec_readBit_of_lt a c hs hlt, rfl, rfl, rfl, rfl⟩

/-- A response changes nothing that a legal state's data speaks of. -/
theorem State.DataOk.answered {s : State} (h : s.DataOk) (r : Response) : (s.answered r).DataOk :=
  ⟨h.legal, h.cursors, h.canonical, h.within, h.decoder⟩

/-- Settles O28: the cleared state and the reset state have the same view, so that every command answers alike. -/
theorem clearedLooksReset : Obligations.ClearedLooksReset := by
  intro s t a c i hs hclear
  obtain ⟨hd, -⟩ := (State.inv_iff s).mp hs
  obtain ⟨hreset, -⟩ := (State.inv_iff _).mp (State.resetFor_inv hd.legal)
  cases hclear
  have hview : (s.cleared.answered ⟨.ok, 0, 0, 0⟩).SameView (State.resetFor s.cfg) := ⟨rfl, rfl, rfl⟩
  obtain ⟨r, w, w', hw, hw', hafter⟩ := exec_answerAlike hview (hd.cleared.answered _) hreset i
  exact ⟨_, _, hw, hw', rfl, hafter.stream.symm, hafter.wlen.symm, hafter.rpos.symm⟩

/-- Settles O30. -/
theorem readByteShowsEightPositions : Obligations.ReadByteShowsEightPositions := by
  intro s a k hs
  obtain ⟨-, ⟨-, hcap⟩, -⟩ := hs
  have hlen := s.length_byteBits_le k
  refine ⟨rfl, fun hk => ⟨_, _, exec_readByte_of_lt a hcap hk, paddedByte_lt hlen, zext_of_lt, fun j hj => ?_⟩,
    exec_readByte_of_le a⟩
  rw [testBit_paddedByte hlen hj, State.byteBits_getElem? s k hj]

/-- Settles O26. -/
theorem queryReportsTheStream : Obligations.QueryReportsTheStream := by
  intro s a c hnw
  refine ⟨rfl, ?_⟩
  rw [← State.atEndBit_eq, ← zext_of_le_one hnw s.atEndBit_le]
  rfl

/-- Settles O27: STREAM_CLEAR writes the two cursors and keeps BUF. -/
theorem streamClearEmptiesTheStream : Obligations.StreamClearEmptiesTheStream :=
  fun _ _ _ => ⟨rfl, _, rfl, rfl, rfl, rfl, rfl, rfl, fun _ => rfl⟩

/-- Settles O29. -/
theorem streamSeekSetsTheCursor : Obligations.StreamSeekSetsTheCursor := by
  intro s a p
  exact ⟨rfl, fun hp => ⟨_, exec_streamSeek_of_le a hp, rfl, rfl, rfl, rfl, rfl⟩, exec_streamSeek_of_gt a⟩

end Sys2Proof.Machine

/-! PROOFS of the family 44_lookup_table. A ROM word holds n and L(n) side by side in fields wide enough for both (R171),
so for 1 ≤ n ≤ NMAX a table command is the Encoder's command (R175); its results are those of 41_encoder. -/

namespace Sys2Proof.Machine

/-! ## The ROM (R170, R171) -/

section Rom
variable {cfg : Config} {i : Nat}

theorem nmax_lt_two_pow_pw : cfg.nmax < 2 ^ pw cfg := Nat.lt_log2_self

theorem maxCodeLength_lt_two_pow_lwr : 2 * (pw cfg - 1) + 1 < 2 ^ lwr cfg := Nat.lt_log2_self

/-- PW - 1 is the exponent of NMAX, the greatest integer in the table. -/
theorem codeLength_le_of_lt_nmax (h : i < cfg.nmax) : codeLength (i + 1) ≤ 2 * (pw cfg - 1) + 1 :=
  Nat.succ_le_succ (Nat.mul_le_mul_left 2 (exponent_le_of_le (Nat.succ_ne_zero i) h))

theorem romWord_eq_sum (h : i < cfg.nmax) : romWord cfg i = codeLength (i + 1) * 2 ^ pw cfg + (i + 1) :=
  shiftLeft_or_eq _ _ _ (Nat.lt_of_le_of_lt h nmax_lt_two_pow_pw)

theorem romWord_lt (h : i < cfg.nmax) : romWord cfg i < 2 ^ (pw cfg + lwr cfg) := by
  rw [romWord_eq_sum h]
  exact sum_lt_two_pow (Nat.lt_of_le_of_lt h nmax_lt_two_pow_pw)
    (Nat.lt_of_le_of_lt (codeLength_le_of_lt_nmax h) maxCodeLength_lt_two_pow_lwr)

end Rom

/-- Settles O31. -/
theorem romRowsHoldTheEncoderPairs : Obligations.RomRowsHoldTheEncoderPairs := by
  refine ⟨fun cfg i hi => ?_, by decide, by decide⟩
  have hrow := romRow_eq hi
  exact ⟨romWord_lt hi, hrow, romWord_eq_sum hi, congrArg Prod.fst hrow, congrArg Prod.snd hrow,
    nmax_lt_two_pow_pw, codeLength_le_of_lt_nmax hi, maxCodeLength_lt_two_pow_lwr⟩

section TableCommands
variable {s : State} {n : Nat} (c c' : Nat)

/-- The row that a table command reads for n (R173, R174). -/
theorem romRow_pred {cfg : Config} (hn : n ≠ 0) (hmax : n ≤ cfg.nmax) : romRow cfg (n - 1) = (n, codeLength n) := by
  obtain ⟨i, rfl⟩ := Nat.exists_eq_succ_of_ne_zero hn
  exact romRow_eq hmax

/-! ## TABLE_LOOKUP (R173) -/

theorem exec_tableLookup_zero : exec (.tableLookup 0 c) s = .next (s.answered ⟨.domainError, 0, 0, 0⟩) := rfl

theorem exec_tableLookup_of_miss (hn : n ≠ 0) (hmiss : s.cfg.nmax < n) :
    exec (.tableLookup n c) s = .next (s.answered ⟨.tableMiss, 0, 0, 0⟩) := by
  simp only [exec, execTableLookup, if_neg hn, if_pos hmiss, State.raise_eq]

theorem exec_tableLookup_of_hit (hn : n ≠ 0) (hmax : n ≤ s.cfg.nmax) :
    exec (.tableLookup n c) s = .next (s.answered ⟨.ok, n, codeLength n, (codeLength n - 1) / 2⟩) := by
  simp only [exec, execTableLookup, if_neg hn, if_neg (Nat.not_lt.mpr hmax), romRow_pred hn hmax, State.respond_eq]

/-! ## TABLE_APPEND (R174) -/

theorem exec_tableAppend_zero : exec (.tableAppend 0 c) s = .next (s.answered ⟨.domainError, 0, 0, 0⟩) := rfl

theorem exec_tableAppend_of_miss (hn : n ≠ 0) (hmiss : s.cfg.nmax < n) :
    exec (.tableAppend n c) s = .next (s.answered ⟨.tableMiss, 0, 0, 0⟩) := by
  simp only [exec, execTableAppend, if_neg hn, if_pos hmiss, State.raise_eq]

/-- In the table it is ENCODE_APPEND (R175): the row is what the Encoder computes. -/
theorem exec_tableAppend_of_hit (hn : n ≠ 0) (hmax : n ≤ s.cfg.nmax) :
    exec (.tableAppend n c) s = exec (.encodeAppend n c') s := by
  have hin := Nat.not_lt.mpr hmax
  rcases s.append_cases (bitsOf (codeLength n) n) with ⟨-, happ⟩ | ⟨-, happ⟩ <;>
    simp only [exec, execTableAppend, execEncodeAppend, if_neg hn, if_neg hin, romRow_pred hn hmax, encoder, happ,
      codeLength_sub_one_div_two]

end TableCommands

/-! ## The statements -/

/-- Settles O32. -/
theorem tableLookupAnswersTheRow : Obligations.TableLookupAnswersTheRow := by
  refine fun s n c => ⟨rfl, fun hn => exec_tableLookup_of_hit c (Nat.ne_of_gt hn), ?_, exec_tableLookup_of_miss c⟩
  rintro rfl
  exact exec_tableLookup_zero c

/-- Settles O33: in the table, the outcomes are those of ENCODE_APPEND (R102). -/
theorem tableAppendExtendsStream : Obligations.TableAppendExtendsStream := by
  intro s n c hs
  obtain ⟨-, hfits, -, hfull⟩ := encodeAppendExtendsStream s n c hs
  refine ⟨rfl, fun hn hmax => ?_, ?_, exec_tableAppend_of_miss c, fun hn hmax => ?_⟩
  · rw [exec_tableAppend_of_hit c c (Nat.ne_of_gt hn) hmax, codeLength_sub_one_div_two]
    exact hfits (Nat.ne_of_gt hn)
  · rintro rfl
    exact exec_tableAppend_zero c
  · rw [exec_tableAppend_of_hit c c (Nat.ne_of_gt hn) hmax]
    exact hfull (Nat.ne_of_gt hn)

/-- Settles O34, by the three ranges of n. -/
theorem tableAgreesWithEncoder : Obligations.TableAgreesWithEncoder := by
  refine fun s n c c' => ⟨fun hn hmax => ?_, ?_, fun hmiss => ?_⟩
  · have hn0 := Nat.ne_of_gt hn
    have hlookup := exec_tableLookup_of_hit c hn0 hmax
    rw [codeLength_sub_one_div_two] at hlookup
    exact ⟨⟨_, hlookup, exec_encode c' hn0⟩, exec_tableAppend_of_hit c c' hn0 hmax⟩
  · rintro rfl
    simp [exec_tableLookup_zero, exec_encode_zero, exec_tableAppend_zero, exec_encodeAppend_zero]
  · have hn0 := Nat.ne_zero_of_lt hmiss
    exact ⟨exec_tableLookup_of_miss c hn0 hmiss, exec_tableAppend_of_miss c hn0 hmiss,
      ⟨_, exec_encode c' hn0, rfl⟩, fun hfit => ⟨_, exec_encodeAppend_of_fits c' hn0 hfit, rfl⟩⟩

end Sys2Proof.Machine

/-! PROOFS of the family 60_exceptions. The one error that elaboration reports (R203) and the codes that responses carry
(R210) are two parts of one list of codes (R68), told apart by code 4. -/

namespace Sys2Proof.Machine

/-! ## Status codes (R68, R210) -/

theorem Status.code_lt_ten (st : Status) : st.code < 10 := by
  cases st <;> decide

/-- Code 4 is the code of elaboration's error alone. -/
theorem Status.code_eq_four_iff (st : Status) : st.code = 4 ↔ st = .invalidTableRange := by
  cases st <;> decide

/-- Settles O36, by the inversion of `exec`: no answer of a command has the status of elaboration's error. -/
theorem everyCommandHasOneStatus : Obligations.EveryCommandHasOneStatus := by
  intro i s t h
  obtain ⟨r, w, rfl, hr, -⟩ := exec_next h
  exact ⟨r, State.answered_port w r, mt r.status.code_eq_four_iff.mp hr, r.status.code_lt_ten⟩

/-! ## Elaboration (R203) -/

/-- Settles O49, by the two outcomes of elaboration; each broken constraint contradicts its own part of `Config.Legal`. -/
theorem elaborationRefusesIllegalConfigurations : Obligations.ElaborationRefusesIllegalConfigurations := by
  intro cfg
  rcases elaborate_cases cfg with ⟨hlegal, he⟩ | ⟨hnot, he⟩
  · refine ⟨fun hbroken => ?_, fun _ => ⟨_, he, rfl⟩⟩
    obtain ⟨hnw, hcap, hcapw, hlmax, hnmax, hnmaxw⟩ := hlegal
    omega
  · exact ⟨fun _ => he, fun hlegal => absurd hlegal hnot⟩

end Sys2Proof.Machine

/-! PROOFS of the family 70_reset_and_hazards. A rule for each kind of rising edge says what `step` does there; the
statements about the ports are read off these rules, the one about LAT with an induction on the edges that pass. Last,
a DECODE of a codeword that lacks its end is truncated, and can be retried once the end is appended (R242). -/

namespace Sys2Proof.Machine

/-! ## One rule per kind of edge (R220 to R223, R230 to R232) -/

section Rules
variable {s : State} {r : Response} {n : Nat}

/-- Reset wins (R212, R222). -/
theorem step_of_reset (hrst : s.pinsNow.rst = true) : step s = .next s.sampled.resetEdge :=
  step_of_quiet (by simp [State.edge, hrst])

theorem step_of_unreset (hrst : s.pinsNow.rst = false) (hp : s.port = .unreset) :
    step s = .refused .beforeFirstReset :=
  step_of_noRule (by simp [State.edge, hrst, hp])

theorem step_of_offered (hrst : s.pinsNow.rst = false) (hp : s.port = .ready) (hv : s.pinsNow.cmdValid = true) :
    step s = exec (decode s.cfg s.pinsNow.cmdWord) (s.sampled.timedFor (decode s.cfg s.pinsNow.cmdWord)) :=
  step_of_accept (by simp [State.edge, hrst, hp, hv])

theorem step_of_idle (hrst : s.pinsNow.rst = false) (hp : s.port = .ready) (hv : s.pinsNow.cmdValid = false) :
    step s = .next s.sampled :=
  step_of_quiet (by simp [State.edge, hrst, hp, hv])

theorem step_of_busy_before (hrst : s.pinsNow.rst = false) (hp : s.port = .busy r n) (hn : n + 1 < s.latency) :
    step s = .next (s.sampled.withPort (.busy r (n + 1))) :=
  step_of_quiet (by simp [State.edge, hrst, hp, Nat.not_le.mpr hn])

theorem step_of_busy_last (hrst : s.pinsNow.rst = false) (hp : s.port = .busy r n) (hn : s.latency ≤ n + 1) :
    step s = .next (s.sampled.withPort (.pending r)) :=
  step_of_quiet (by simp [State.edge, hrst, hp, hn])

theorem step_of_taken (hrst : s.pinsNow.rst = false) (hp : s.port = .pending r) (hr : s.pinsNow.rspReady = true) :
    step s = .next (s.sampled.withPort .ready) :=
  step_of_quiet (by simp [State.edge, hrst, hp, hr])

theorem step_of_held (hrst : s.pinsNow.rst = false) (hp : s.port = .pending r) (hr : s.pinsNow.rspReady = false) :
    step s = .next s.sampled :=
  step_of_quiet (by simp [State.edge, hrst, hp, hr])

end Rules

/-! ## The outputs in each state of the ports (R220, R231, R232) -/

section Outputs
variable {s : State} {r : Response}

theorem State.cmdReady_false (s : State) : s.cmdReady false = decide (s.port = .ready) := Bool.true_and _

theorem State.cmdReady_of_ready (hp : s.port = .ready) : s.cmdReady false = true := by simp [State.cmdReady, hp]

theorem State.rspValid_of_ready (hp : s.port = .ready) : s.rspValid false = false := by simp [State.rspValid, hp]

theorem State.cmdReady_of_busy {n : Nat} (hp : s.port = .busy r n) : s.cmdReady false = false := by
  simp [State.cmdReady, hp]

theorem State.rspValid_of_busy {n : Nat} (hp : s.port = .busy r n) : s.rspValid false = false := by
  simp [State.rspValid, hp]

theorem State.cmdReady_of_pending (hp : s.port = .pending r) : s.cmdReady false = false := by
  simp [State.cmdReady, hp]

theorem State.rspValid_of_pending (hp : s.port = .pending r) : s.rspValid false = true := by
  simp [State.rspValid, hp]

theorem State.rspWord_of_pending (hp : s.port = .pending r) :
    s.rspWord false = some (responseWord s.cfg r) := by
  simp [State.rspWord, State.rspValid_of_pending hp, hp]

end Outputs

/-! ## Faults and refusals (R223, R70) -/

theorem exec_ne_refused (i : Instr) (s : State) (r : Refusal) : exec i s ≠ .refused r := by
  rcases exec_cases i s with ⟨he, -⟩ | ⟨_, _, he, -⟩ <;> simp [he]

/-- In every state, legal or not, a refusal takes a first edge without reset. -/
theorem step_refused_iff (s : State) :
    (∃ r, step s = .refused r) ↔ s.port = .unreset ∧ s.pinsNow.rst = false := by
  refine ⟨fun ⟨r, h⟩ => ?_, fun ⟨hp, hrst⟩ => ⟨_, step_of_unreset hrst hp⟩⟩
  cases he : s.edge with
  | accept i t => exact absurd ((step_of_accept he).symm.trans h) (exec_ne_refused i t r)
  | quiet t => simp [step_of_quiet he] at h
  | noRule r' =>
    rcases s.edge_cases with ⟨-, hc⟩ | ⟨hrst, ⟨hp, -⟩ | ⟨-, -, hc⟩ | ⟨-, -, hc⟩ | ⟨_, _, -, -, hc⟩ |
      ⟨_, _, -, -, hc⟩ | ⟨_, -, ⟨-, hc⟩ | ⟨-, hc⟩⟩⟩
    · simp [hc] at he
    · exact ⟨hp, hrst⟩
    all_goals simp [hc] at he

/-- An accepted command finds a legal state with operands that fit, so it completes. -/
theorem step_ne_fault {s : State} (hs : s.Inv) (f : Fault) : step s ≠ .fault f := by
  have hlegal := State.edge_legal hs
  cases he : s.edge with
  | accept i t =>
    rw [he] at hlegal
    obtain ⟨u, _, hu, -⟩ := exec_completes hlegal.1 hlegal.2
    simp [step_of_accept he, hu]
  | quiet t => simp [step_of_quiet he]
  | noRule r => simp [step_of_noRule he]

/-- Settles O45. -/
theorem stepNeverFaultsFromLegalStates : Obligations.StepNeverFaultsFromLegalStates :=
  fun s hs => ⟨step_ne_fault hs, step_refused_iff s⟩

/-! ## Reset (R220 to R224) -/

/-- Settles O50: elaborated hardware is the unreset machine. -/
theorem firstEdgeMustReset : Obligations.FirstEdgeMustReset := by
  intro cfg s p ps he
  obtain rfl : State.powerOn cfg = s := by
    rcases elaborate_cases cfg with ⟨-, hok⟩ | ⟨-, herr⟩
    · exact Except.ok.inj (hok.symm.trans he)
    · cases herr.symm.trans he
  exact ⟨fun hrst => step_of_unreset hrst rfl,
    fun hrst => ⟨_, step_of_reset hrst, rfl, rfl, rfl, rfl, rfl, rfl, rfl, rfl, rfl⟩⟩

/-- Settles O51. -/
theorem resetEdgeWins : Obligations.ResetEdgeWins := fun _ hrst =>
  ⟨rfl, rfl, _, step_of_reset hrst, State.cmdReady_of_ready rfl, rfl, rfl, rfl, rfl, rfl, rfl, rfl⟩

/-! ## Acceptance (R230, R231, R233) -/

/-- Settles O52: no command writes the field that holds LAT - 1. -/
theorem stepRunsTheAcceptedCommand : Obligations.StepRunsTheAcceptedCommand := by
  intro s p ps hp hpins hrst hv i lat
  have hnow : s.pinsNow = p := by simp [State.pinsNow, hpins]
  have hstep : step s = exec i (s.sampled.timedFor i) := by
    subst hnow
    exact step_of_offered hrst hp hv
  have hstate : s.sampled.timedFor i = { s with pins := ps, wait := lat } := by
    rw [State.timedFor, State.sampled, hpins]
    rfl
  refine ⟨by rw [hstep, hstate], fun t ht => ?_⟩
  obtain ⟨r, w, rfl, -, hl⟩ := exec_next (hstep.symm.trans ht)
  exact congrArg (1 + ·) hl.wait

/-- While the port is not ready, an edge sees rst, rsp_ready and the state behind the pins, and no other pin. -/
theorem step_congr {s s' : State} (hp : s.port ≠ .ready) (hs : s'.sampled = s.sampled)
    (hrst : s'.pinsNow.rst = s.pinsNow.rst) (hr : s'.pinsNow.rspReady = s.pinsNow.rspReady) : step s' = step s := by
  have hport : s'.port = s.port := (congrArg State.port hs :)
  have hlat : s'.latency = s.latency := (congrArg State.latency hs :)
  have hedge : s'.edge = s.edge := by
    simp only [State.edge, hs, hrst, hr, hport, hlat]
    cases h : s.port with
    | ready => exact absurd h hp
    | unreset => rfl
    | busy r n => rfl
    | pending r => rfl
  unfold step
  rw [hedge]

/-- The ports may go on while all that commands read and write stays. -/
structure State.SameData (s t : State) : Prop where
  cfg : t.cfg = s.cfg
  buf : t.buf = s.buf
  wlen : t.wlen = s.wlen
  rpos : t.rpos = s.rpos
  decoder : t.decoder = s.decoder

/-- Waiting keeps the data and the held response, or the response is taken. -/
theorem step_of_waiting {s : State} (hrst : s.pinsNow.rst = false) (hu : s.port ≠ .unreset) (hp : s.port ≠ .ready) :
    ∃ t, step s = .next t ∧ s.SameData t ∧ (t.response = s.response ∨
      s.rspValid false = true ∧ s.pinsNow.rspReady = true ∧ t.port = .ready ∧ t.response = none) := by
  cases h : s.port with
  | unreset => exact absurd h hu
  | ready => exact absurd h hp
  | busy r n =>
    have hresp : s.response = some r := by simp [State.response, h]
    rcases Nat.lt_or_ge (n + 1) s.latency with hn | hn
    · exact ⟨_, step_of_busy_before hrst h hn, ⟨rfl, rfl, rfl, rfl, rfl⟩, .inl hresp.symm⟩
    · exact ⟨_, step_of_busy_last hrst h hn, ⟨rfl, rfl, rfl, rfl, rfl⟩, .inl hresp.symm⟩
  | pending r =>
    cases hr : s.pinsNow.rspReady with
    | false => exact ⟨_, step_of_held hrst h hr, ⟨rfl, rfl, rfl, rfl, rfl⟩, .inl rfl⟩
    | true =>
      exact ⟨_, step_of_taken hrst h hr, ⟨rfl, rfl, rfl, rfl, rfl⟩,
        .inr ⟨State.rspValid_of_pending h, rfl, rfl, rfl⟩⟩

/-- Settles O53. -/
theorem unacceptedWordsHaveNoEffect : Obligations.UnacceptedWordsHaveNoEffect := by
  intro s hrst hu
  refine ⟨s.cmdReady_false, step_of_idle hrst, fun hp => ⟨fun p ps valid word hpins => ?_, ?_⟩⟩
  · exact step_congr hp (by simp [State.sampled, hpins]) (by simp [State.pinsNow, hpins])
      (by simp [State.pinsNow, hpins])
  · obtain ⟨t, ht, ⟨hcfg, hbuf, hwlen, hrpos, hdec⟩, hresp⟩ := step_of_waiting hrst hu hp
    exact ⟨t, ht, hcfg, hbuf, hwlen, hrpos, hdec, hresp⟩

/-- Settles O54. -/
theorem responseIsHeldUntilTaken : Obligations.ResponseIsHeldUntilTaken := by
  intro s r hp hrst
  exact ⟨State.rspValid_of_pending hp, State.rspWord_of_pending hp, State.cmdReady_of_pending hp,
    fun hr => ⟨_, step_of_held hrst hp hr, hp, rfl⟩,
    fun hr => ⟨_, step_of_taken hrst hp hr, State.rspValid_of_ready rfl, State.cmdReady_of_ready rfl⟩⟩

/-! ## LAT edges (R10, R232, R234) -/

/-- A run of j steps that goes on, and then k more. -/
theorem core_run_add {j : Nat} (k : Nat) {s t : State} (h : Sys2Proof.core.run j s = .next t) :
    Sys2Proof.core.run (j + k) s = Sys2Proof.core.run k t := by
  induction j generalizing s with
  | zero =>
    cases h
    rw [Nat.zero_add]
  | succ j ih =>
    cases hs : step s with
    | next u =>
      rw [core_run_next j hs] at h
      rw [Nat.add_right_comm, core_run_next _ hs, ih h]
    | fault f => simp [Host.Core.run, Sys2Proof.core, hs] at h
    | refused r => simp [Host.Core.run, Sys2Proof.core, hs] at h

theorem core_run_one {s t : State} (h : step s = .next t) : Sys2Proof.core.run 1 s = .next t := core_run_next 0 h

/-- The state s with its command's response r in progress for k edges. -/
def State.waited (s : State) (r : Response) (k : Nat) : State :=
  { s with port := .busy r k, pins := s.pins.drop k }

section Waiting
variable {s : State} {r : Response} (hrst : ∀ p ∈ s.pins, p.rst = false)
include hrst

/-- Past the schedule's end the host drives rst = 0 too. -/
theorem State.waited_rst (k : Nat) : (s.waited r k).pinsNow.rst = false := by
  show ((s.pins.drop k).head?.getD pinsIdle).rst = false
  cases hd : s.pins.drop k with
  | nil => rfl
  | cons p ps => exact hrst p (List.mem_of_mem_drop (hd ▸ List.mem_cons_self))

theorem run_waited (hp : s.port = .busy r 0) {k : Nat} (hk : k < s.latency) :
    Sys2Proof.core.run k s = .next (s.waited r k) := by
  induction k with
  | zero =>
    have hs : s.waited r 0 = s := by rw [State.waited, ← hp, List.drop_zero]
    rw [hs]
    rfl
  | succ k ih =>
    have hnext : (s.waited r k).sampled.withPort (.busy r (k + 1)) = s.waited r (k + 1) := by
      simp [State.sampled, State.withPort, State.waited]
    have hstep := step_of_busy_before (State.waited_rst (r := r) hrst k) rfl hk
    rw [core_run_add 1 (ih (Nat.lt_of_succ_lt hk)), core_run_one hstep, hnext]

theorem run_latency (hp : s.port = .busy r 0) :
    Sys2Proof.core.run s.latency s = .next ((s.waited r s.wait).sampled.withPort (.pending r)) := by
  have hlat : s.latency = s.wait + 1 := Nat.add_comm _ _
  have hstep := step_of_busy_last (State.waited_rst (r := r) hrst s.wait) rfl hlat.le
  rw [hlat, core_run_add 1 (run_waited hrst hp (by omega)), core_run_one hstep]

end Waiting

/-- Settles O55, by induction on the edges that pass. -/
theorem responseBecomesValidAfterLat : Obligations.ResponseBecomesValidAfterLat := by
  intro s r hp hrst
  exact ⟨s.latency_pos,
    fun k hk => ⟨_, run_waited hrst hp hk, State.rspValid_of_busy rfl, State.cmdReady_of_busy rfl⟩,
    _, run_latency hrst hp, rfl, State.rspValid_of_pending rfl, rfl, rfl, rfl⟩

/-! ## A truncated DECODE (R124, R242) -/

/-- Fewer bits than cw(n) that go on to cw(n) are no overflow and no whole codeword, as gdec would not read n
off what they go on to. -/
theorem gdec_truncated_of_short {nw n : Nat} {s t rest : Bits} (hn : n ≠ 0) (hw : n < 2 ^ nw)
    (hlen : s.length < codeLength n) (h : s ++ t = codeword n ++ rest) :
    ∃ phase k, gdec nw s = .truncated phase k := by
  have hread : gdec nw (s ++ t) = .ok n (codeLength n) := by rw [h, gdec_codeword_append rest hn hw]
  rcases stream_forms nw s with ⟨u, rfl⟩ | ⟨z, hz, rfl⟩ | ⟨z, hz, u, hu, rfl⟩ | ⟨bits, u, hbits, rfl⟩
  · rw [List.append_assoc, gdec_overflow] at hread
    cases hread
  · exact ⟨_, _, gdec_zeros hz⟩
  · exact ⟨_, _, gdec_short hz hu⟩
  · rw [List.append_assoc, List.cons_append, List.append_assoc, gdec_done bits _ hbits, Decoded.ok.injEq] at hread
    simp only [List.length_append, List.length_replicate, List.length_cons] at hlen
    omega

/-- The state that APPEND_BITS leaves is legal again (R15, R25). -/
theorem State.DataOk.appendBits_answered_inv {s : State} (hs : s.DataOk) (v : Nat) {k : Nat}
    (hfit : s.wlen + k ≤ s.cfg.cap) :
    ((s.extended (bitsOf k v)).answered ⟨.ok, 0, s.wlen + k, 0⟩).Inv :=
  (hs.extended (by rwa [length_bitsOf])).answered_inv
    ⟨Nat.two_pow_pos _, hfit.trans_lt (cap_lt_of_legal hs.legal), Nat.two_pow_pos _, Status.noConfusion⟩

/-- Settles O22: the truncated DECODE leaves the unread stream, which the appended bits then complete. -/
theorem truncatedDecodeCanBeRetried : Obligations.TruncatedDecodeCanBeRetried := by
  intro s n v k rest hs hn hw hlen hbits hfit
  have hn0 := Nat.ne_of_gt hn
  have hd := ((State.inv_iff s).mp hs).1
  obtain ⟨phase, m, hg⟩ := gdec_truncated_of_short hn0 hw hlen hbits
  have ht : (s.decodeAnswered (.truncated phase m)).DataOk := hd.decoderReleased.answered _
  have hu := State.extended_unread (s.decodeAnswered (.truncated phase m)) (bitsOf k v) ht.canonical ht.cursors.1
  exact ⟨_, _, _, exec_decode 0 0 hs hg, exec_appendBits_of_fits hfit,
    exec_decode_codeword 0 0 (ht.appendBits_answered_inv v hfit) hn0 hw (hu.trans hbits),
    rfl, rfl, State.decodeAnswered_codeword_response _ n, rfl⟩

end Sys2Proof.Machine

/-! PROOFS of the family other. A command that reads BUF faults where its read does (entry 11), and only three commands
read BUF. -/

namespace Sys2Proof.Machine

section ReadingCommands
variable {s : State} (a c : Nat)

/-! ## When the commands that read BUF fault (20_memory.md R49) -/

/-- A read inside a command that goes on from every bits it gives: the command faults where the read has a position
and its last one is at or past CAP. -/
theorem readBits_then_fault_iff {p k : Nat} {f : Bits → Host.Outcome State Fault Refusal}
    (hf : ∀ read, ∃ t, f read = .next t) :
    (match s.readBits p k with
      | .error e => Host.Outcome.fault e
      | .ok read => f read) = .fault .positionOutsideBuffer ↔ 0 < k ∧ s.cfg.cap < p + k := by
  rcases s.readBits_cases p k with ⟨hok, hread⟩ | ⟨hpos, hcap, hread⟩
  · obtain ⟨t, ht⟩ := hf (s.buf.bits p k)
    simp only [hread, ht, reduceCtorEq, false_iff]
    omega
  · simp only [hread, hpos, hcap, and_self]

theorem exec_readBit_fault_iff :
    exec (.readBit a c) s = .fault .positionOutsideBuffer ↔ s.rpos ≠ s.wlen ∧ s.cfg.cap ≤ s.rpos := by
  by_cases hend : s.rpos = s.wlen
  · simp [exec_readBit_of_atEnd a c hend, hend]
  · simp only [exec, execReadBit, if_neg hend]
    refine (readBits_then_fault_iff fun _ => ⟨_, rfl⟩).trans ?_
    omega

theorem exec_readByte_fault_iff :
    exec (.readByte a c) s = .fault .positionOutsideBuffer ↔ 8 * c < s.wlen ∧ s.cfg.cap < min (8 * c + 8) s.wlen := by
  rcases Nat.lt_or_ge (8 * c) s.wlen with hlt | hge
  · simp only [exec, execReadByte, if_neg (Nat.not_le.mpr hlt)]
    refine (readBits_then_fault_iff fun _ => ⟨_, rfl⟩).trans ?_
    omega
  · simp [exec_readByte_of_le a hge, Nat.not_lt.mpr hge]

/-- However the Decoder's machine ends, DECODE answers, so its read alone can fault. -/
theorem exec_decode_fault_iff :
    exec (.decode a c) s = .fault .positionOutsideBuffer ↔ s.rpos < s.wlen ∧ s.cfg.cap < s.wlen := by
  refine (readBits_then_fault_iff fun unread => ?_).trans ?_
  · cases runDecoder s.cfg.nw s.rpos unread <;> exact ⟨_, rfl⟩
  · omega

/-- With nothing unread the Decoder's machine stops in UNARY, no bit consumed (R124), wherever RPOS and CAP are
(entry 21). -/
theorem exec_decode_of_le (hle : s.wlen ≤ s.rpos) :
    exec (.decode a c) s = .next (s.decoderReleased.answered ⟨.truncatedStream, 0, 0, 0⟩) := by
  have hread : s.readBits s.rpos (s.wlen - s.rpos) = .ok [] := by
    rw [Nat.sub_eq_zero_of_le hle]
    exact if_pos (.inl rfl)
  have hrun : runDecoder s.cfg.nw s.rpos [] = .truncated .unary 0 :=
    congrArg (DecoderEnd.truncated .unary) (Nat.sub_self s.rpos)
  simp only [exec, execDecode, hread, hrun]
  rfl

end ReadingCommands

/-! ## No other command faults -/

/-- Every branch of a command that reads no bit of BUF answers. -/
theorem reads_of_exec_fault {i : Instr} {s : State} {f : Fault} (h : exec i s = .fault f) :
    i = .readBit i.arg i.cnt ∨ i = .decode i.arg i.cnt ∨ i = .readByte i.arg i.cnt := by
  cases i with
  | readBit => exact .inl rfl
  | decode => exact .inr (.inl rfl)
  | readByte => exact .inr (.inr rfl)
  | query | streamClear | reservedC | reservedD | reservedE | reservedF => cases h
  | encode | tableLookup | streamSeek | encodeAppend | appendBit | appendBits | tableAppend =>
    simp only [exec, execEncode, execTableLookup, execStreamSeek, execEncodeAppend, execAppendBit, execAppendBits,
      execTableAppend] at h
    repeat' split at h
    all_goals cases h

/-- Settles O47: each command that reads faults where its read does, and the others read nothing. -/
theorem readsPastCapFault : Obligations.ReadsPastCapFault :=
  ⟨fun _ a k => ⟨exec_readBit_fault_iff a k, exec_decode_fault_iff a k, exec_readByte_fault_iff a k,
    fun hle => ⟨_, exec_decode_of_le a k hle, rfl, rfl⟩⟩,
  fun _ _ _ => reads_of_exec_fault⟩

end Sys2Proof.Machine
